-- ==== Sys2Proof/Word.lean ====
section
/-! DEFINITION. The value types of the CHIP-8 CORE (00_scope.md R5, R7, R8). Every value is an unsigned number of a
stated width; a bit vector stands for what the spec slices, adds, shifts or compares as bits. -/

namespace Sys2Proof

/-- A memory cell, a general register, a timer, an immediate NN (R20, R26, R28). -/
abbrev Byte := BitVec 8

/-- The registers I and PC, a call-stack entry, an opcode (R22, R23, R24, R7). -/
abbrev Word := BitVec 16

/-- The 12-bit absolute address NNN of an opcode (R76, R78). -/
abbrev Addr12 := BitVec 12

/-- A 4-bit field of an opcode (R76). -/
abbrev Nibble := BitVec 4

/-- A general register number 0..15, the X or Y field: every value names a register (R20, R78). -/
abbrev Reg := Fin 16

/-- A key of the 16-key keypad (R31). -/
abbrev Key := Fin 16

/-- `VF`, the register that doubles as the only flag (R21). -/
abbrev VF : Reg := 15

/-- `V0`, the register BNNN reads (R113). -/
abbrev V0 : Reg := 0

end Sys2Proof
end

