-- ==== Sys2Proof/Config.lean ====
section
/-! DEFINITION. The constants of the CHIP-8 CORE (00_scope.md R5) and the free values of the model. -/

namespace Sys2Proof.Config

/-- `MEM_SIZE`: bytes of main memory, addresses 0..4095. -/
abbrev memSize : Nat := 4096

/-- `INSTR_LEN`: bytes per instruction. -/
abbrev instrLen : Nat := 2

/-- `PC_WRAP`: modulus of the sequential PC advance (R99; 90_conflicts.md C2). Log 10. -/
abbrev pcWrap : Nat := 4095

/-- `SP_MAX`: the largest value SP takes (R25; 90_conflicts.md C3). -/
abbrev spMax : Nat := 15

/-- `DISP_W`: display columns. -/
abbrev dispW : Nat := 64

/-- `DISP_H`: display rows. -/
abbrev dispH : Nat := 32

/-- `SPRITE_W`: pixels per sprite row. -/
abbrev spriteW : Nat := 8

/-- `FONT_BASE`: address of glyph 0. -/
abbrev fontBase : Nat := 0x000

/-- `FONT_LEN`: bytes of font data. -/
abbrev fontLen : Nat := 80

/-- `GLYPH_LEN`: bytes per glyph. -/
abbrev glyphLen : Nat := 5

/-- `PROG_BASE`: load address of the program and PC at reset. -/
abbrev progBase : Nat := 0x200

/-- `ROM_MAX`: longest program image. -/
abbrev romMax : Nat := 3584

/-! FREE VALUES: the `n`-th transition the environment fires without the list `pending` naming it (R6: "never fixes").
None has a body, so nothing can be proved of their values. Log 2, log 3. -/

/-- Whether it is a Tick: the schedule is a parameter (R6, R107). -/
opaque freeIsTick : Nat → Bool

/-- The key-down events of a Step (R6, R31). -/
opaque freeKeysDown : Nat → List Key

/-- The key levels of a Step (R6, R31). -/
opaque freeHeld : Nat → BitVec 16

/-- The random byte of a Step, "a free input under no law" (R31, R136, D13). -/
opaque freeRandom : Nat → Byte

end Sys2Proof.Config
end

