-- ==== Sys2Proof/Syntax.lean ====
section
/-! DEFINITION. The instructions: one constructor per row of spec/opcode_table.json, in the order of 30_encoding.md R80.
Operands are typed by their exact width, so a register number, an address or an immediate out of range cannot be written
down. SHR and SHL carry the Y field that they ignore (R82), so that no bit of an opcode is lost. Log 20. -/

namespace Sys2Proof

inductive Instr where
  /-- 00E0 `CLS` (R164) -/
  | cls
  /-- 00EE `RET` (R110) -/
  | ret
  /-- 1NNN `JP NNN` (R111) -/
  | jp (nnn : Addr12)
  /-- 2NNN `CALL NNN` (R112) -/
  | call (nnn : Addr12)
  /-- 3XNN `SE Vx, NN` (R114) -/
  | seImm (x : Reg) (nn : Byte)
  /-- 4XNN `SNE Vx, NN` (R115) -/
  | sneImm (x : Reg) (nn : Byte)
  /-- 5XY0 `SE Vx, Vy` (R116) -/
  | seReg (x y : Reg)
  /-- 6XNN `LD Vx, NN` (R125) -/
  | ldImm (x : Reg) (nn : Byte)
  /-- 7XNN `ADD Vx, NN` (R126) -/
  | addImm (x : Reg) (nn : Byte)
  /-- 8XY0 `LD Vx, Vy` (R127) -/
  | ldReg (x y : Reg)
  /-- 8XY1 `OR Vx, Vy` (R128) -/
  | orReg (x y : Reg)
  /-- 8XY2 `AND Vx, Vy` (R129) -/
  | andReg (x y : Reg)
  /-- 8XY3 `XOR Vx, Vy` (R130) -/
  | xorReg (x y : Reg)
  /-- 8XY4 `ADD Vx, Vy` (R131) -/
  | addReg (x y : Reg)
  /-- 8XY5 `SUB Vx, Vy` (R132) -/
  | subReg (x y : Reg)
  /-- 8XY6 `SHR Vx` (R133) -/
  | shr (x y : Reg)
  /-- 8XY7 `SUBN Vx, Vy` (R134) -/
  | subnReg (x y : Reg)
  /-- 8XYE `SHL Vx` (R135) -/
  | shl (x y : Reg)
  /-- 9XY0 `SNE Vx, Vy` (R117) -/
  | sneReg (x y : Reg)
  /-- ANNN `LD I, NNN` (R145) -/
  | ldI (nnn : Addr12)
  /-- BNNN `JP V0, NNN` (R113) -/
  | jpV0 (nnn : Addr12)
  /-- CXNN `RND Vx, NN` (R136) -/
  | rnd (x : Reg) (nn : Byte)
  /-- DXYN `DRW Vx, Vy, N` (R165) -/
  | drw (x y : Reg) (n : Nibble)
  /-- EX9E `SKP Vx` (R175) -/
  | skp (x : Reg)
  /-- EXA1 `SKNP Vx` (R176) -/
  | sknp (x : Reg)
  /-- FX07 `LD Vx, DT` (R178) -/
  | ldVxDt (x : Reg)
  /-- FX0A `LD Vx, K` (R177) -/
  | ldVxKey (x : Reg)
  /-- FX15 `LD DT, Vx` (R179) -/
  | ldDtVx (x : Reg)
  /-- FX18 `LD ST, Vx` (R180) -/
  | ldStVx (x : Reg)
  /-- FX1E `ADD I, Vx` (R146) -/
  | addI (x : Reg)
  /-- FX29 `LD F, Vx` (R147) -/
  | ldFont (x : Reg)
  /-- FX33 `LD B, Vx` (R148) -/
  | ldBcd (x : Reg)
  /-- FX55 `LD [I], Vx` (R149) -/
  | storeRegs (x : Reg)
  /-- FX65 `LD Vx, [I]` (R150) -/
  | loadRegs (x : Reg)
  deriving DecidableEq, Repr

/-- What the environment hands to a power-on: the font and the program image (R6, R220). -/
structure LaunchImage where
  font : List Byte
  rom  : List Byte
  deriving DecidableEq, Repr

end Sys2Proof
end

