-- ==== Sys2Proof/WellFormed.lean ====
section
/-! DEFINITION. The checks on what reaches the machine as plain data. An `Instr` needs none: its operands are typed by
their width (Syntax.lean), so every term is well-formed. What can be ill-formed is an opcode word, which the opcode map
of 30_encoding.md R80 refuses when no row matches it (R81), and a launch image, which the loader refuses (R67, R224). -/

namespace Sys2Proof

/-- The mask and match of one row of the opcode map: a word is the row's instruction when `op AND mask = match` (R80). -/
structure OpcodeRow where
  mask : Word
  bits : Word
  deriving DecidableEq, Repr

/-- `op AND mask = match` (R80). -/
def OpcodeRow.hits (row : OpcodeRow) (op : Word) : Bool := (op &&& row.mask) == row.bits

/-- The row of R80 that an instruction is. -/
def Instr.row : Instr → OpcodeRow
  | .cls => ⟨0xFFFF, 0x00E0⟩
  | .ret => ⟨0xFFFF, 0x00EE⟩
  | .jp _ => ⟨0xF000, 0x1000⟩
  | .call _ => ⟨0xF000, 0x2000⟩
  | .seImm _ _ => ⟨0xF000, 0x3000⟩
  | .sneImm _ _ => ⟨0xF000, 0x4000⟩
  | .seReg _ _ => ⟨0xF00F, 0x5000⟩
  | .ldImm _ _ => ⟨0xF000, 0x6000⟩
  | .addImm _ _ => ⟨0xF000, 0x7000⟩
  | .ldReg _ _ => ⟨0xF00F, 0x8000⟩
  | .orReg _ _ => ⟨0xF00F, 0x8001⟩
  | .andReg _ _ => ⟨0xF00F, 0x8002⟩
  | .xorReg _ _ => ⟨0xF00F, 0x8003⟩
  | .addReg _ _ => ⟨0xF00F, 0x8004⟩
  | .subReg _ _ => ⟨0xF00F, 0x8005⟩
  | .shr _ _ => ⟨0xF00F, 0x8006⟩
  | .subnReg _ _ => ⟨0xF00F, 0x8007⟩
  | .shl _ _ => ⟨0xF00F, 0x800E⟩
  | .sneReg _ _ => ⟨0xF00F, 0x9000⟩
  | .ldI _ => ⟨0xF000, 0xA000⟩
  | .jpV0 _ => ⟨0xF000, 0xB000⟩
  | .rnd _ _ => ⟨0xF000, 0xC000⟩
  | .drw _ _ _ => ⟨0xF000, 0xD000⟩
  | .skp _ => ⟨0xF0FF, 0xE09E⟩
  | .sknp _ => ⟨0xF0FF, 0xE0A1⟩
  | .ldVxDt _ => ⟨0xF0FF, 0xF007⟩
  | .ldVxKey _ => ⟨0xF0FF, 0xF00A⟩
  | .ldDtVx _ => ⟨0xF0FF, 0xF015⟩
  | .ldStVx _ => ⟨0xF0FF, 0xF018⟩
  | .addI _ => ⟨0xF0FF, 0xF01E⟩
  | .ldFont _ => ⟨0xF0FF, 0xF029⟩
  | .ldBcd _ => ⟨0xF0FF, 0xF033⟩
  | .storeRegs _ => ⟨0xF0FF, 0xF055⟩
  | .loadRegs _ => ⟨0xF0FF, 0xF065⟩

/-- One instruction of each row, in the order of R80. -/
def oneOfEach : List Instr :=
  [.cls, .ret, .jp 0, .call 0, .seImm 0 0, .sneImm 0 0, .seReg 0 0, .ldImm 0 0, .addImm 0 0] ++
  [.ldReg 0 0, .orReg 0 0, .andReg 0 0, .xorReg 0 0, .addReg 0 0, .subReg 0 0, .shr 0 0, .subnReg 0 0, .shl 0 0] ++
  [.sneReg 0 0, .ldI 0, .jpV0 0, .rnd 0 0, .drw 0 0 0, .skp 0, .sknp 0] ++
  [.ldVxDt 0, .ldVxKey 0, .ldDtVx 0, .ldStVx 0, .addI 0, .ldFont 0, .ldBcd 0, .storeRegs 0, .loadRegs 0]

/-- The opcode map of R80: 34 rows. -/
def opcodeMap : List OpcodeRow := oneOfEach.map Instr.row

/-- A word is well-formed when a row of the opcode map matches it; every other word is an unknown opcode (R81). -/
def wordWellFormed (op : Word) : Bool := opcodeMap.any (·.hits op)

/-- The font fills its 80 bytes (R6, R52). -/
def LaunchImage.fontFits (image : LaunchImage) : Bool := image.font.length == Config.fontLen

/-- "total length must fit before address 4096" (R67, R224). -/
def LaunchImage.romFits (image : LaunchImage) : Bool := decide (image.rom.length ≤ Config.romMax)

/-- What the loader lets through (R67, R224); an image it refuses never becomes a machine. -/
def LaunchImage.wellFormed (image : LaunchImage) : Bool := image.fontFits && image.romFits

end Sys2Proof
end

