-- ==== Sys2Proof/Decode.lean ====
section
/-! DEFINITION. The decoder (30_encoding.md R79) and, after it, the encoder (R76, R77, R80). The decoder is total: a word
is one of the 34 forms, or it is rejected by name with the word itself, which the error record of R101 needs. -/

namespace Sys2Proof

/-- Why bytes are no instruction. -/
inductive DecodeError where
  /-- The word matches no row of the opcode map (R81). The step reports it and goes on (R101). -/
  | unknownOpcode (opcode : Word)
  /-- Fewer than two bytes were given. The step never asks this: its fetch reads two bytes or none (R97). -/
  | truncated
  deriving DecidableEq, Repr

/-- The register a 4-bit field names (R78: "every value is a legal index"). -/
def regOf (field : Nibble) : Reg := ⟨field.toNat, field.isLt⟩

/-- `a` = bits 15:12 (R76). -/
def classOf (op : Word) : Nat := (op.extractLsb' 12 4).toNat

/-- `X` = bits 11:8 (R76). -/
def fieldX (op : Word) : Reg := regOf (op.extractLsb' 8 4)

/-- `Y` = bits 7:4 (R76). -/
def fieldY (op : Word) : Reg := regOf (op.extractLsb' 4 4)

/-- `N` = bits 3:0 (R76). -/
def fieldN (op : Word) : Nibble := op.extractLsb' 0 4

/-- `NN` = bits 7:0 (R76). -/
def fieldNN (op : Word) : Byte := op.extractLsb' 0 8

/-- `NNN` = bits 11:0 (R76). -/
def fieldNNN (op : Word) : Addr12 := op.extractLsb' 0 12

/-- Class 8: the last nibble selects the operation (R79). -/
def decodeClass8 (op : Word) : Option Instr :=
  match (fieldN op).toNat with
  | 0x0 => some (.ldReg (fieldX op) (fieldY op))
  | 0x1 => some (.orReg (fieldX op) (fieldY op))
  | 0x2 => some (.andReg (fieldX op) (fieldY op))
  | 0x3 => some (.xorReg (fieldX op) (fieldY op))
  | 0x4 => some (.addReg (fieldX op) (fieldY op))
  | 0x5 => some (.subReg (fieldX op) (fieldY op))
  | 0x6 => some (.shr (fieldX op) (fieldY op))
  | 0x7 => some (.subnReg (fieldX op) (fieldY op))
  | 0xE => some (.shl (fieldX op) (fieldY op))
  | _ => none

/-- Class F: the low byte selects the operation (R79). -/
def decodeClassF (op : Word) : Option Instr :=
  match (fieldNN op).toNat with
  | 0x07 => some (.ldVxDt (fieldX op))
  | 0x0A => some (.ldVxKey (fieldX op))
  | 0x15 => some (.ldDtVx (fieldX op))
  | 0x18 => some (.ldStVx (fieldX op))
  | 0x1E => some (.addI (fieldX op))
  | 0x29 => some (.ldFont (fieldX op))
  | 0x33 => some (.ldBcd (fieldX op))
  | 0x55 => some (.storeRegs (fieldX op))
  | 0x65 => some (.loadRegs (fieldX op))
  | _ => none

/-- The decode procedure of R79: the top nibble selects the class. -/
def decodeForm (op : Word) : Option Instr :=
  match classOf op with
  | 0x0 => if op = 0x00E0 then some .cls else if op = 0x00EE then some .ret else none
  | 0x1 => some (.jp (fieldNNN op))
  | 0x2 => some (.call (fieldNNN op))
  | 0x3 => some (.seImm (fieldX op) (fieldNN op))
  | 0x4 => some (.sneImm (fieldX op) (fieldNN op))
  | 0x5 => if fieldN op = 0 then some (.seReg (fieldX op) (fieldY op)) else none
  | 0x6 => some (.ldImm (fieldX op) (fieldNN op))
  | 0x7 => some (.addImm (fieldX op) (fieldNN op))
  | 0x8 => decodeClass8 op
  | 0x9 => if fieldN op = 0 then some (.sneReg (fieldX op) (fieldY op)) else none
  | 0xA => some (.ldI (fieldNNN op))
  | 0xB => some (.jpV0 (fieldNNN op))
  | 0xC => some (.rnd (fieldX op) (fieldNN op))
  | 0xD => some (.drw (fieldX op) (fieldY op) (fieldN op))
  | 0xE =>
    if fieldNN op = 0x9E then some (.skp (fieldX op))
    else if fieldNN op = 0xA1 then some (.sknp (fieldX op)) else none
  | _ => decodeClassF op

/-- `decode(op)` of R98: one of the 34 forms, or UNKNOWN with the word. -/
def decodeWord (op : Word) : Except DecodeError Instr :=
  match decodeForm op with
  | some i => .ok i
  | none => .error (.unknownOpcode op)

/-- "big-endian: high byte first": `opcode = hi ++ lo` (R54). -/
def wordOfBytes (hi lo : Byte) : Word := hi ++ lo

/-- The two bytes of a word as memory holds them, high byte at the lower address (R54, R75). -/
def bytesOfWord (op : Word) : List Byte := [op.extractLsb' 8 8, op.extractLsb' 0 8]

/-- The decoder on memory bytes, lowest address first. -/
def decode : List Byte → Except DecodeError Instr
  | hi :: lo :: _ => decodeWord (wordOfBytes hi lo)
  | _ => .error .truncated

/-- The 4-bit field that names a register. -/
def nibbleOf (r : Reg) : Nibble := BitVec.ofNat 4 r.val

/-- Format NNN of R77. -/
def formNNN (cls : Nibble) (nnn : Addr12) : Word := cls ++ nnn

/-- Format XNN of R77; format X is this one with a fixed low byte. -/
def formXNN (cls : Nibble) (x : Reg) (nn : Byte) : Word := cls ++ nibbleOf x ++ nn

/-- Format XYN of R77; format XY is this one with a fixed last nibble. -/
def formXYN (cls : Nibble) (x y : Reg) (n : Nibble) : Word := cls ++ nibbleOf x ++ nibbleOf y ++ n

/-- The word of an instruction, from the patterns of R80. -/
def encode : Instr → Word
  | .cls => 0x00E0
  | .ret => 0x00EE
  | .jp nnn => formNNN 0x1 nnn
  | .call nnn => formNNN 0x2 nnn
  | .seImm x nn => formXNN 0x3 x nn
  | .sneImm x nn => formXNN 0x4 x nn
  | .seReg x y => formXYN 0x5 x y 0x0
  | .ldImm x nn => formXNN 0x6 x nn
  | .addImm x nn => formXNN 0x7 x nn
  | .ldReg x y => formXYN 0x8 x y 0x0
  | .orReg x y => formXYN 0x8 x y 0x1
  | .andReg x y => formXYN 0x8 x y 0x2
  | .xorReg x y => formXYN 0x8 x y 0x3
  | .addReg x y => formXYN 0x8 x y 0x4
  | .subReg x y => formXYN 0x8 x y 0x5
  | .shr x y => formXYN 0x8 x y 0x6
  | .subnReg x y => formXYN 0x8 x y 0x7
  | .shl x y => formXYN 0x8 x y 0xE
  | .sneReg x y => formXYN 0x9 x y 0x0
  | .ldI nnn => formNNN 0xA nnn
  | .jpV0 nnn => formNNN 0xB nnn
  | .rnd x nn => formXNN 0xC x nn
  | .drw x y n => formXYN 0xD x y n
  | .skp x => formXNN 0xE x 0x9E
  | .sknp x => formXNN 0xE x 0xA1
  | .ldVxDt x => formXNN 0xF x 0x07
  | .ldVxKey x => formXNN 0xF x 0x0A
  | .ldDtVx x => formXNN 0xF x 0x15
  | .ldStVx x => formXNN 0xF x 0x18
  | .addI x => formXNN 0xF x 0x1E
  | .ldFont x => formXNN 0xF x 0x29
  | .ldBcd x => formXNN 0xF x 0x33
  | .storeRegs x => formXNN 0xF x 0x55
  | .loadRegs x => formXNN 0xF x 0x65

/-- The bits `w` that the opcode table gives a row, `nbits` of them, as the 16-bit word they are (bit 0 is the word's
least significant bit; bits above `nbits` are 0). -/
def tableWord (nbits w : Nat) : Word := BitVec.ofNat 16 (w % 2 ^ nbits)

/-- What the decoder reads from an instruction whose bits are `w`, laid out in memory order (R54). -/
def decodeTableWord (nbits w : Nat) : Option Instr := (decode (bytesOfWord (tableWord nbits w))).toOption

end Sys2Proof
end

