-- ==== Sys2Proof/Machine/State.lean ====
section
/-! DEFINITION. The state of the CHIP-8 CORE as plain data (10_state.md R20 to R39), the reasons a step could stop, and
the state after power-on (R34). -/

namespace Sys2Proof.Machine

/-- RUNNING or WAITING (R27). Halted is no state of the CORE (R108). -/
inductive Mode where
  | running
  | waiting
  deriving DecidableEq, Repr

/-- A record of the report stream: the six errors of 60_exceptions.md R192 with the fields each row names. `pc` is the PC
of the Step that raised, before it was advanced (R191). Log 13. -/
inductive Report where
  | unknownOpcode (pc : Word) (opcode : Word)
  | stackOverflow (pc : Word) (target : Addr12)
  | stackUnderflow (pc : Word)
  | addrFetch (pc : Word)
  | addrRead (pc : Word) (addr : Nat) (first : Word) (count : Nat)
  | addrWrite (pc : Word) (addr : Nat) (first : Word) (count : Nat)
  deriving DecidableEq, Repr

/-- The three values the environment hands to a Step (R31). -/
structure StepInputs where
  /-- Key-down events since the previous Step, oldest first. -/
  keysDown : List Key
  /-- Bit k is 1 when key k is held down. -/
  held : BitVec 16
  /-- The byte `random_byte()` returns if this Step executes CXNN. -/
  rnd : Byte
  deriving DecidableEq, Repr

/-- One of the two kinds of atomic transition the environment fires (R12, R33). -/
inductive Transition where
  | step (inputs : StepInputs)
  | tick
  deriving DecidableEq, Repr

/-- Main memory: (address, byte) in the canonical form of `Memory.wf` (Machine/Memory.lean). -/
abbrev Memory := List Host.Cell

/-- The display surface: 32 rows, row 0 at the top, of 64 columns, column 0 at the left (R29, R160). -/
abbrev Surface := Vector (Vector Bool 64) 32

/-- The state of R95, with the environment's side of the interface as data. -/
structure State where
  /-- `V[0]` to `V[15]` (R20). -/
  v : Vector Byte 16
  /-- The address register (R22). -/
  i : Word
  /-- The program counter (R23). -/
  pc : Word
  /-- The stack pointer, 0 = empty (R25). -/
  sp : Fin 16
  /-- The call stack; entry 0 is never used (R24). -/
  stack : Vector Word 16
  /-- Delay timer (R26). -/
  dt : Byte
  /-- Sound timer (R26). -/
  st : Byte
  /-- R27. -/
  mode : Mode
  /-- The X field of the FX0A that started the wait (R27). -/
  wx : Reg
  /-- Main memory (R28). -/
  mem : Memory
  /-- The display surface (R29). -/
  fb : Surface
  /-- The report stream, oldest first (R32, R191). -/
  reports : List Report
  /-- The inputs of the current Step, sampled once at its start (R31, R105). The model's own field. Log 4. -/
  inputs : StepInputs
  /-- The transitions the environment will fire next, oldest first (R107). The model's own field. Log 1. -/
  pending : List Transition
  /-- How many transitions were taken from the free values of Config. The model's own field. Log 2, log 3. -/
  draws : Nat
  deriving DecidableEq, Repr

/-- The reasons the machine stops with a fault: none. Every error of this machine is a report after which it goes on
(R190, R193), and Step is enabled in every state (R95, R108). Safe: nothing is left out. Log 22. -/
inductive Fault where
  deriving DecidableEq, Repr

/-- The reasons an instruction is refused. -/
inductive Refusal where
  /-- Raised by an arm of `exec` whose instruction has no meaning yet; no arm of this model raises it. Safe: nothing can
  be proved of what a refused instruction does. -/
  | notModelled (mnemonic : String)
  deriving DecidableEq, Repr

/-- What a transition of this machine answers. -/
abbrev Result := Host.Outcome State Fault Refusal

/-- Every pixel 0 (R161). -/
def Surface.blank : Surface := Vector.replicate 32 (Vector.replicate 64 false)

/-- The inputs standing in the latch before any Step. No statement rests on them. Log 4. -/
def StepInputs.quiet : StepInputs := { keysDown := [], held := 0, rnd := 0 }

/-- The state after power-on (R34) with the customary font and an empty program image: memory lists nothing, because an
unlisted address reads as the reset contents (Machine/Memory.lean). `State.powerOn` takes any font and image.
STACK and WX: log 8. Display: log 9. Memory: log 6, log 7. -/
def State.reset : State where
  v := Vector.replicate 16 0
  i := 0
  pc := 0x200
  sp := 0
  stack := Vector.replicate 16 0
  dt := 0
  st := 0
  mode := .running
  wx := 0
  mem := []
  fb := Surface.blank
  reports := []
  inputs := StepInputs.quiet
  pending := []
  draws := 0

end Sys2Proof.Machine
end

