-- ==== Sys2Proof/Machine/Memory.lean ====
section
/-! DEFINITION. Main memory: a flat array of 4096 bytes (20_memory.md R50 to R60), its canonical form as a list of
(address, byte), the range check every access passes first (R58), and the contents after power-on (R34, R221). -/

namespace Sys2Proof.Machine

/-- The customary CHIP-8 font (70_reset_and_hazards.md R222), the default the spec offers for the launch parameter FONT,
"from general knowledge, not in source". PRESUMED, unsafe. Log 6. -/
def customaryFont : List Byte :=
  [0xF0, 0x90, 0x90, 0x90, 0xF0,  0x20, 0x60, 0x20, 0x20, 0x70] ++
  [0xF0, 0x10, 0xF0, 0x80, 0xF0,  0xF0, 0x10, 0xF0, 0x10, 0xF0] ++
  [0x90, 0x90, 0xF0, 0x10, 0x10,  0xF0, 0x80, 0xF0, 0x10, 0xF0] ++
  [0xF0, 0x80, 0xF0, 0x90, 0xF0,  0xF0, 0x10, 0x20, 0x40, 0x40] ++
  [0xF0, 0x90, 0xF0, 0x90, 0xF0,  0xF0, 0x90, 0xF0, 0x10, 0xF0] ++
  [0xF0, 0x90, 0xF0, 0x90, 0x90,  0xE0, 0x90, 0xE0, 0x90, 0xE0] ++
  [0xF0, 0x80, 0x80, 0x80, 0xF0,  0xE0, 0x90, 0x90, 0x90, 0xE0] ++
  [0xF0, 0x80, 0xF0, 0x80, 0xF0,  0xF0, 0x80, 0xF0, 0x80, 0x80]

/-- What an address that memory does not list reads as: the font at 0x000..0x04F, 0x00 elsewhere (R34; log 6, log 7). -/
def unlistedByte (a : Nat) : Byte := customaryFont.getD a 0x00

/-- `read(addr)` of R51 on an address inside memory. -/
def Memory.readByte : Memory → Nat → Byte
  | [], a => unlistedByte a
  | (k, b) :: rest, a => if a = k then b else Memory.readByte rest a

/-- The cell `(a, b)` in front of `rest`, left out when `a` reads as `b` without it. -/
def Memory.listCell (a : Nat) (b : Byte) (rest : Memory) : Memory :=
  if b = unlistedByte a then rest else (a, b) :: rest

/-- `write(addr, byte)` of R51 on an address inside memory; it keeps the canonical form. -/
def Memory.writeByte : Memory → Nat → Byte → Memory
  | [], a, b => Memory.listCell a b []
  | (k, c) :: rest, a, b =>
    if a < k then Memory.listCell a b ((k, c) :: rest)
    else if a = k then Memory.listCell a b rest
    else (k, c) :: Memory.writeByte rest a b

/-- The canonical form from address `lo` up: addresses strictly rising and inside memory, no cell that reads the same
unlisted. -/
def Memory.wfFrom : Nat → Memory → Bool
  | _, [] => true
  | lo, (k, b) :: rest =>
    decide (lo ≤ k) && decide (k < Config.memSize) && decide (b ≠ unlistedByte k) && Memory.wfFrom (k + 1) rest

/-- The canonical form of a memory, so that equal memories are equal lists. -/
def Memory.wf (m : Memory) : Bool := Memory.wfFrom 0 m

/-- The range check of R58, on unbounded integers: `count` addresses from `first` up lie in 0..4095; no address is asked
for when `count` is 0. -/
def inMemory (first count : Nat) : Bool := count == 0 || decide (first + count ≤ Config.memSize)

/-- The bytes at `first`, `first + 1`, ... in ascending order (R55, R59). -/
def Memory.readRange (m : Memory) (first count : Nat) : List Byte :=
  (List.range count).map fun k => Memory.readByte m (first + k)

/-- The bytes written to `first`, `first + 1`, ... in ascending order (R55, R59). -/
def Memory.writeRange : Memory → Nat → List Byte → Memory
  | m, _, [] => m
  | m, first, b :: rest => Memory.writeRange (Memory.writeByte m first b) (first + 1) rest

/-- `MemRead(addr, n)` of R9: defined only when the whole range is inside memory (R58). -/
def Memory.read? (m : Memory) (first count : Nat) : Option (List Byte) :=
  if inMemory first count then some (Memory.readRange m first count) else none

/-- `MemWrite` of R9 for a sequence of bytes: defined only when the whole range is inside memory, so that an
out-of-range store writes no byte at all (R58, R193). Log 12. -/
def Memory.write? (m : Memory) (first : Nat) (bytes : List Byte) : Option Memory :=
  if inMemory first bytes.length then some (Memory.writeRange m first bytes) else none

/-- Memory after power-on: the font, then the program image at 0x200, 0x00 elsewhere (R221). The font region of a memory
that lists nothing already holds the customary font; `powerOnMemory` writes the one it is given. -/
def powerOnMemory (image : LaunchImage) : Memory :=
  Memory.writeRange (Memory.writeRange [] Config.fontBase image.font) Config.progBase image.rom

/-- The launch state for a font and a program image (R220, R221). -/
def State.powerOn (image : LaunchImage) : State := { State.reset with mem := powerOnMemory image }

end Sys2Proof.Machine
end

