-- ==== Sys2Proof/Machine/Ops.lean ====
section
/-! DEFINITION. The shared operations over registers, the program counter and the call stack, and `raise`, the one way
an error takes effect (00_scope.md R9, R10; 60_exceptions.md R190 to R193). There is no return from an error: nothing is
saved, so nothing is restored (R200, R201). -/

namespace Sys2Proof.Machine

/-- `V[r]` (R20). -/
def getV (s : State) (r : Reg) : Byte := s.v[r.val]

/-- `V[r] <- b` (R20). -/
def setV (s : State) (r : Reg) (b : Byte) : State := { s with v := s.v.set r.val b r.isLt }

/-- `STACK[k]` (R24). -/
def getStack (s : State) (k : Fin 16) : Word := s.stack[k.val]

/-- `next(p)` (R99): the address of the following instruction. Log 10. -/
def nextPc (p : Word) : Word := BitVec.ofNat 16 ((p.toNat + Config.instrLen) % Config.pcWrap)

/-- `skip(p)` (R100): the address after the following instruction. -/
def skipPc (p : Word) : Word := BitVec.ofNat 16 ((p.toNat + 2 * Config.instrLen) % Config.pcWrap)

/-- The default advance of PC (R99). -/
def advance (s : State) : State := { s with pc := nextPc s.pc }

/-- The end of an instruction whose pseudocode has no `PC <- ...` (R99). -/
def complete (s : State) : Result := .next (advance s)

/-- The end of a skip instruction (R100): the skipped word is not fetched or examined. -/
def skipIf (condition : Bool) (s : State) : Result :=
  .next { s with pc := if condition then skipPc s.pc else nextPc s.pc }

/-- `PC <- target` (R9). -/
def jumpTo (target : Word) (s : State) : Result := .next { s with pc := target }

/-- `raise E(info)` (R10, R193): one record appended, `PC <- next(PC)`, no other change. -/
def raise (record : Report) (s : State) : Result :=
  .next { s with reports := s.reports ++ [record], pc := nextPc s.pc }

/-- `addr` of an address error: the lowest address of the range that is outside memory (R151, R192). -/
def lowestOutside (first : Word) : Nat := max first.toNat Config.memSize

/-- The AddrRead record of an access of `count` bytes at I (R192). -/
def addrReadRecord (s : State) (count : Nat) : Report := .addrRead s.pc (lowestOutside s.i) s.i count

/-- The AddrWrite record of an access of `count` bytes at I (R192). -/
def addrWriteRecord (s : State) (count : Nat) : Report := .addrWrite s.pc (lowestOutside s.i) s.i count

/-- The push of 2NNN: SP is incremented, then the entry written; none when SP is already 15 (R112). -/
def pushReturn (s : State) (address : Word) : Option State :=
  if h : s.sp.val < Config.spMax then
    some { s with
      stack := s.stack.set (s.sp.val + 1) address (by simp only [Config.spMax] at h; omega)
      sp := ⟨s.sp.val + 1, by simp only [Config.spMax] at h; omega⟩ }
  else none

/-- The pop of 00EE: the newest entry, then SP decremented, the entry left as it was; none when SP is 0 (R110). -/
def popReturn (s : State) : Option (Word × State) :=
  if s.sp.val = 0 then none
  else some (getStack s s.sp, { s with sp := ⟨s.sp.val - 1, by omega⟩ })

/-- The bytes `V[0]`, ..., `V[x]` that FX55 stores (R149). -/
def registersUpTo (s : State) (x : Reg) : List Byte := s.v.toList.take (x.val + 1)

/-- `V[k] <- byte` for each byte of the list, ascending from register `k` (R150). -/
def loadFrom (s : State) : Nat → List Byte → State
  | _, [] => s
  | k, b :: rest => loadFrom (if h : k < 16 then setV s ⟨k, h⟩ b else s) (k + 1) rest

end Sys2Proof.Machine
end

