-- ==== Sys2Proof/Machine/Flags.lean ====
section
/-! DEFINITION. The flag in VF: the six computations that produce it (42_alu.md R131 to R135, 44_display.md R165) and its
write, which comes last (40_step_and_dispatch.md R104). Every flag is exactly 0 or 1 (R21). -/

namespace Sys2Proof.Machine

/-- 1 or 0 (R21). -/
def flagByte (flag : Bool) : Byte := if flag then 1 else 0

/-- `VF <- 1 if ... else 0`. -/
def setFlag (s : State) (flag : Bool) : State := setV s VF (flagByte flag)

/-- The result to Vx first, the flag to VF last: for X = 0xF, VF ends as the flag (R11, R104). Log 18. -/
def setResultAndFlag (s : State) (x : Reg) (result : Byte) (flag : Bool) : State := setFlag (setV s x result) flag

/-- Carry out of bit 7: the exact sum is above 255 (R131). -/
def carryOut (x y : Byte) : Bool := decide (255 < x.toNat + y.toNat)

/-- The strict "not borrow": `x > y` (R132, R134). -/
def greater (x y : Byte) : Bool := decide (y.toNat < x.toNat)

/-- The bit a right shift moves out (R133). -/
def bitOutRight (x : Byte) : Bool := x.getLsbD 0

/-- The bit a left shift moves out (R135). -/
def bitOutLeft (x : Byte) : Bool := x.getLsbD 7

end Sys2Proof.Machine
end

