-- ==== Sys2Proof/Machine/Operands.lean ====
section
/-! DEFINITION. How operands become values (30_encoding.md R78): everything is unsigned and zero-extended, never sign
extended or scaled; the one memory operand form is "at I, ascending" (R151); keys (45_keys_timers.md R181). -/

namespace Sys2Proof.Machine

/-- `zext_16(NNN)` (R78). -/
def addrWord (nnn : Addr12) : Word := nnn.setWidth 16

/-- `zext_16` of a register (R78). -/
def byteWord (b : Byte) : Word := b.setWidth 16

/-- The bytes at I that DXYN and FX65 read; none when one of them lies outside memory (R58, R151). -/
def readAtI (s : State) (count : Nat) : Option (List Byte) := Memory.read? s.mem s.i.toNat count

/-- The state after FX33 or FX55 stores bytes at I; none when one of them lies outside memory (R58, R151). -/
def storeAtI (s : State) (bytes : List Byte) : Option State :=
  (Memory.write? s.mem s.i.toNat bytes).map fun m => { s with mem := m }

/-- The three decimal digits of FX33: hundreds, tens, units, each a binary number in one byte (R148). -/
def decimalDigits (b : Byte) : List Byte :=
  [BitVec.ofNat 8 (b.toNat / 100), BitVec.ofNat 8 (b.toNat / 10 % 10), BitVec.ofNat 8 (b.toNat % 10)]

/-- The address of a font glyph: `Vx * 5`, exact, the whole byte multiplied (R147). Log 16. -/
def glyphAddress (b : Byte) : Word := BitVec.ofNat 16 (b.toNat * Config.glyphLen)

/-- A key value zero-extended to a register (R102, R177). -/
def keyByte (k : Key) : Byte := BitVec.ofNat 8 k.val

/-- `key_held(k)` (R181): bit k of `held` when k <= 15, false otherwise. Log 15. -/
def keyHeld (s : State) (k : Byte) : Bool := decide (k.toNat ≤ 15) && s.inputs.held.getLsbD k.toNat

end Sys2Proof.Machine
end

