-- ==== Sys2Proof/Machine/Alu.lean ====
section
/-! DEFINITION. Register load, arithmetic, logic, shift and random: 42_alu.md R125 to R136. No instruction of this file
can raise (R137). -/

namespace Sys2Proof.Machine

/-- 6XNN (R125). -/
def execLdImm (x : Reg) (nn : Byte) (s : State) : Result := complete (setV s x nn)

/-- 7XNN (R126): wraps, no flag. -/
def execAddImm (x : Reg) (nn : Byte) (s : State) : Result := complete (setV s x (getV s x + nn))

/-- 8XY0 (R127). -/
def execLdReg (x y : Reg) (s : State) : Result := complete (setV s x (getV s y))

/-- 8XY1 (R128). VF is not reset: log 16. -/
def execOrReg (x y : Reg) (s : State) : Result := complete (setV s x (getV s x ||| getV s y))

/-- 8XY2 (R129). VF is not reset: log 16. -/
def execAndReg (x y : Reg) (s : State) : Result := complete (setV s x (getV s x &&& getV s y))

/-- 8XY3 (R130). VF is not reset: log 16. -/
def execXorReg (x y : Reg) (s : State) : Result := complete (setV s x (getV s x ^^^ getV s y))

/-- 8XY4 (R131). -/
def execAddReg (x y : Reg) (s : State) : Result :=
  complete (setResultAndFlag s x (getV s x + getV s y) (carryOut (getV s x) (getV s y)))

/-- 8XY5 (R132): the flag is the strict `Vx > Vy`. -/
def execSubReg (x y : Reg) (s : State) : Result :=
  complete (setResultAndFlag s x (getV s x - getV s y) (greater (getV s x) (getV s y)))

/-- 8XY6 (R133): Vx in place, Y ignored. -/
def execShr (x _y : Reg) (s : State) : Result :=
  complete (setResultAndFlag s x (getV s x >>> 1) (bitOutRight (getV s x)))

/-- 8XY7 (R134): the flag is the strict `Vy > Vx`. -/
def execSubnReg (x y : Reg) (s : State) : Result :=
  complete (setResultAndFlag s x (getV s y - getV s x) (greater (getV s y) (getV s x)))

/-- 8XYE (R135): Vx in place, Y ignored. -/
def execShl (x _y : Reg) (s : State) : Result :=
  complete (setResultAndFlag s x (getV s x <<< 1) (bitOutLeft (getV s x)))

/-- CXNN (R136): `rnd` is the Step's input, under no law. -/
def execRnd (x : Reg) (nn : Byte) (s : State) : Result := complete (setV s x (s.inputs.rnd &&& nn))

end Sys2Proof.Machine
end

