-- ==== Sys2Proof/Machine/Surface.lean ====
section
/-! DEFINITION. The display surface as a block of its own (44_display.md R160 to R162): its pixels, `clear` and
`blit_xor`. -/

namespace Sys2Proof.Machine

/-- `FB[r][c]` (R160). -/
def pixel (fb : Surface) (r : Fin 32) (c : Fin 64) : Bool := (fb[r.val])[c.val]

/-- `FB[r][c] <- b`. -/
def setPixel (fb : Surface) (r : Fin 32) (c : Fin 64) (b : Bool) : Surface :=
  fb.set r.val ((fb[r.val]).set c.val b c.isLt) r.isLt

/-- `y mod 32`: rows wrap (R162). -/
def wrapRow (y : Nat) : Fin 32 := Fin.ofNat 32 y

/-- `x mod 64`: columns wrap (R162). -/
def wrapCol (x : Nat) : Fin 64 := Fin.ofNat 64 x

/-- Column `c` of a sprite row, left to right: bit `7 - c` of the byte (R57). -/
def spriteBit (row : Byte) (c : Nat) : Bool := row.getLsbD (7 - c)

/-- `clear()` (R161). -/
def clearSurface : Surface := Surface.blank

/-- The body of the inner loop of `blit_xor` for sprite row `r` and column `c`: the surface and the collision so far
(R162). -/
def blitPixel (x y r : Nat) (row : Byte) (acc : Surface × Bool) (c : Nat) : Surface × Bool :=
  let tr := wrapRow (y + r)
  let tc := wrapCol (x + c)
  let old := pixel acc.1 tr tc
  let bit := spriteBit row c
  (setPixel acc.1 tr tc (old ^^ bit), acc.2 || (old && bit))

/-- The inner loop of `blit_xor`: columns 0 to 7 of sprite row `r` (R162). -/
def blitRow (x y r : Nat) (row : Byte) (acc : Surface × Bool) : Surface × Bool :=
  (List.range Config.spriteW).foldl (blitPixel x y r row) acc

/-- The outer loop of `blit_xor` from sprite row `r` on (R162). -/
def blitRows (x y : Nat) : Nat → List Byte → Surface × Bool → Surface × Bool
  | _, [], acc => acc
  | r, row :: rows, acc => blitRows x y (r + 1) rows (blitRow x y r row acc)

/-- `blit_xor(rows, x, y)`: the surface afterwards and the collision (R162). -/
def blitXor (fb : Surface) (rows : List Byte) (x y : Byte) : Surface × Bool :=
  blitRows x.toNat y.toNat 0 rows (fb, false)

end Sys2Proof.Machine
end

