-- ==== Sys2Proof/Machine/Display.lean ====
section
/-! DEFINITION. The display instructions: 44_display.md R164, R165. -/

namespace Sys2Proof.Machine

/-- 00E0 (R164). -/
def execCls (s : State) : Result := complete { s with fb := clearSurface }

/-- DXYN (R165): the coordinates are read before VF is written; N = 0 reads no byte, raises nothing and clears VF. -/
def execDrw (x y : Reg) (n : Nibble) (s : State) : Result :=
  match readAtI s n.toNat with
  | none => raise (addrReadRecord s n.toNat) s
  | some rows =>
    let drawn := blitXor s.fb rows (getV s x) (getV s y)
    complete (setFlag { s with fb := drawn.1 } drawn.2)

end Sys2Proof.Machine
end

