-- ==== Sys2Proof/Machine/Flow.lean ====
section
/-! DEFINITION. Control transfer: 41_flow.md R110 to R117. -/

namespace Sys2Proof.Machine

/-- 00EE (R110). -/
def execRet (s : State) : Result :=
  match popReturn s with
  | none => raise (.stackUnderflow s.pc) s
  | some (address, t) => jumpTo address t

/-- 1NNN (R111). -/
def execJp (nnn : Addr12) (s : State) : Result := jumpTo (addrWord nnn) s

/-- 2NNN (R112): what is pushed is `next(PC)` (90_conflicts.md C4). Log 11. -/
def execCall (nnn : Addr12) (s : State) : Result :=
  match pushReturn s (nextPc s.pc) with
  | none => raise (.stackOverflow s.pc nnn) s
  | some t => jumpTo (addrWord nnn) t

/-- BNNN (R113): at most 4350, not reduced. Log 23. -/
def execJpV0 (nnn : Addr12) (s : State) : Result := jumpTo (addrWord nnn + byteWord (getV s V0)) s

/-- 3XNN (R114). -/
def execSeImm (x : Reg) (nn : Byte) (s : State) : Result := skipIf (getV s x == nn) s

/-- 4XNN (R115). -/
def execSneImm (x : Reg) (nn : Byte) (s : State) : Result := skipIf (getV s x != nn) s

/-- 5XY0 (R116). -/
def execSeReg (x y : Reg) (s : State) : Result := skipIf (getV s x == getV s y) s

/-- 9XY0 (R117). -/
def execSneReg (x y : Reg) (s : State) : Result := skipIf (getV s x != getV s y) s

end Sys2Proof.Machine
end

