-- ==== Sys2Proof/Machine/IndexMemory.lean ====
section
/-! DEFINITION. The address register and memory: 43_index_memory.md R145 to R151. FX33, FX55 and FX65 leave I as it was
(log 16); an access outside memory is rejected whole (R58, log 12). -/

namespace Sys2Proof.Machine

/-- ANNN (R145). -/
def execLdI (nnn : Addr12) (s : State) : Result := complete { s with i := addrWord nnn }

/-- FX1E (R146): modulo 65536, VF not written. -/
def execAddI (x : Reg) (s : State) : Result := complete { s with i := s.i + byteWord (getV s x) }

/-- FX29 (R147). -/
def execLdFont (x : Reg) (s : State) : Result := complete { s with i := glyphAddress (getV s x) }

/-- FX33 (R148). -/
def execLdBcd (x : Reg) (s : State) : Result :=
  match storeAtI s (decimalDigits (getV s x)) with
  | none => raise (addrWriteRecord s 3) s
  | some t => complete t

/-- FX55 (R149). -/
def execStoreRegs (x : Reg) (s : State) : Result :=
  match storeAtI s (registersUpTo s x) with
  | none => raise (addrWriteRecord s (x.val + 1)) s
  | some t => complete t

/-- FX65 (R150): every byte is read before a register is written. -/
def execLoadRegs (x : Reg) (s : State) : Result :=
  match readAtI s (x.val + 1) with
  | none => raise (addrReadRecord s (x.val + 1)) s
  | some bytes => complete (loadFrom s 0 bytes)

end Sys2Proof.Machine
end

