-- ==== Sys2Proof/Machine/KeysTimers.lean ====
section
/-! DEFINITION. The keypad and timer instructions: 45_keys_timers.md R175 to R181. None can raise. -/

namespace Sys2Proof.Machine

/-- EX9E (R175). -/
def execSkp (x : Reg) (s : State) : Result := skipIf (keyHeld s (getV s x)) s

/-- EXA1 (R176). -/
def execSknp (x : Reg) (s : State) : Result := skipIf (!keyHeld s (getV s x)) s

/-- FX07 (R178). -/
def execLdVxDt (x : Reg) (s : State) : Result := complete (setV s x s.dt)

/-- FX0A (R177): the oldest event of this Step is taken at once; with none the machine waits, PC unchanged. Log 14. -/
def execLdVxKey (x : Reg) (s : State) : Result :=
  match s.inputs.keysDown with
  | k :: _ => complete (setV s x (keyByte k))
  | [] => .next { s with wx := x, mode := .waiting }

/-- FX15 (R179). -/
def execLdDtVx (x : Reg) (s : State) : Result := complete { s with dt := getV s x }

/-- FX18 (R180). -/
def execLdStVx (x : Reg) (s : State) : Result := complete { s with st := getV s x }

end Sys2Proof.Machine
end

