-- ==== Sys2Proof/Machine/Transitions.lean ====
section
/-! DEFINITION. The parts of the two transitions (40_step_and_dispatch.md R96 to R103): fetch, the Step in RUNNING, the
Step in WAITING, Tick, and how the environment's next transition is taken from State (R107; log 1, log 2). -/

namespace Sys2Proof.Machine

/-- The 2-byte fetch at any PC up to 4094, even or odd, high byte first (R54, R56, R97). -/
def fetch (s : State) : Option Word :=
  if s.pc.toNat > 4094 then none
  else some (wordOfBytes (Memory.readByte s.mem s.pc.toNat) (Memory.readByte s.mem (s.pc.toNat + 1)))

/-- `StepRunning` (R97, R98, R101): an address error, an unknown opcode, or one instruction. -/
def runInstruction (s : State) : Result :=
  match fetch s with
  | none => raise (.addrFetch s.pc) s
  | some op =>
    match decodeWord op with
    | .error _ => raise (.unknownOpcode s.pc op) s
    | .ok i => exec i s

/-- `StepWaiting` (R102): nothing happens without an event; the oldest event completes the FX0A. Log 14. -/
def pollKey (s : State) : State :=
  match s.inputs.keysDown with
  | [] => s
  | k :: _ => { advance (setV s s.wx (keyByte k)) with mode := .running }

/-- One count of a timer toward zero (R103). -/
def countDown (timer : Byte) : Byte := if timer = 0 then 0 else timer - 1

/-- `Tick` (R103), enabled in both modes. Log 24. -/
def tickTimers (s : State) : State := { s with dt := countDown s.dt, st := countDown s.st }

/-- The `n`-th transition that no entry of `pending` names: a Tick, or a Step with any inputs, each a free value, so that
the model fixes neither the schedule nor the inputs (R6, R107). Log 2, log 3. -/
def unscheduledTransition (n : Nat) : Transition :=
  if Config.freeIsTick n then .tick
  else .step { keysDown := Config.freeKeysDown n, held := Config.freeHeld n, rnd := Config.freeRandom n }

/-- The state in which a Step begins: its inputs are sampled once, at its start (R105). -/
def beginStep (s : State) (inputs : StepInputs) (rest : List Transition) : State :=
  { s with inputs := inputs, pending := rest }

/-- `Step` (R96) of a state whose inputs are latched. -/
def stepCore (s : State) : Result :=
  match s.mode with
  | .waiting => .next (pollKey s)
  | .running => runInstruction s

/-- One transition the environment fires, with `rest` to come after it (R95). -/
def fire (s : State) (event : Transition) (rest : List Transition) : Result :=
  match event with
  | .step inputs => stepCore (beginStep s inputs rest)
  | .tick => .next (tickTimers { s with pending := rest })

/-- The environment's next transition, taken and carried out: the first of `pending`, or a free one (R12, R95, R107). -/
def transition (s : State) : Result :=
  match s.pending with
  | event :: rest => fire s event rest
  | [] => fire { s with draws := s.draws + 1 } (unscheduledTransition s.draws) []

/-- The address the next Step fetches at once the machine runs; a PC that cannot supply two bytes gives way to the
program base (R97). -/
def fetchAddress (s : State) : Word := if s.pc.toNat > 4094 then 0x200 else s.pc

/-- `s` with a word stored where the next Step fetches, the machine running, and a Step with the latched inputs first
among the environment's transitions. Log 5. -/
def placeWord (s : State) (op : Word) : State :=
  { s with
    pc := fetchAddress s
    mode := .running
    mem := Memory.writeRange s.mem (fetchAddress s).toNat (bytesOfWord op)
    pending := .step s.inputs :: s.pending }

end Sys2Proof.Machine
end

