-- ==== Sys2Proof/Machine/Step.lean ====
section
/-! DEFINITION. One step of the model is one atomic transition of the CORE, the one the environment fires next
(00_scope.md R12; 40_step_and_dispatch.md R95, R105). -/

namespace Sys2Proof.Machine

/-- One transition: a Step or a Tick. It is total and never stops the machine (R95, R108). -/
def step (s : State) : Host.Outcome State Fault Refusal := transition s

/-- `s` with the instruction whose bits are `w` (numbered as spec/opcode_table.json numbers them) stored where the next
step fetches, so that the next step runs it. Log 5. -/
def State.withFetchWord (s : State) (nbits w : Nat) : State := placeWord s (tableWord nbits w)

end Sys2Proof.Machine
end

