-- ==== Sys2Proof/Safety.lean ====
section
/-! DEFINITION. What counts as a safe run, in the terms the statements use: no report (60_exceptions.md R191, R209), the
invariants of 10_state.md R36, and the shapes of what a transition may change (R35). -/

namespace Sys2Proof.Machine

/-- "a program runs without error" is the claim that `reports` stays empty (R191, R209). -/
def Clean (s : State) : Prop := s.reports = []

/-- The invariants of R36 that the state's types do not already hold, and memory's canonical form. -/
structure Inv (s : State) : Prop where
  /-- Equal memories are equal lists, and no cell lies outside 0..4095 (R51). -/
  memory : Memory.wf s.mem = true
  /-- R36 (c): PC is in 0..4350. -/
  pcRange : s.pc.toNat ≤ 4350
  /-- R36 (b): every return address held is in 0..4094. -/
  returns : ∀ k : Fin 16, 1 ≤ k.val → k.val ≤ s.sp.val → (getStack s k).toNat ≤ 4094
  /-- R36 (e): while WAITING, the two bytes at PC are `0xF0 + WX` and `0x0A`. -/
  waiting : s.mode = .waiting → s.pc.toNat ≤ 4094 ∧
    (Memory.readByte s.mem s.pc.toNat).toNat = 0xF0 + s.wx.val ∧ Memory.readByte s.mem (s.pc.toNat + 1) = 0x0A

/-- `t` follows `s` by an instruction that changes registers and PC alone, and PC by the default advance (R99): every
other field, all of memory, the display and the report stream among them, is as before. -/
def OnlyRegisters (s t : State) : Prop := t.pc = nextPc s.pc ∧ t = { s with v := t.v, pc := t.pc }

/-- One register receives a value, every other register keeps its own, VF among them unless it is the destination. -/
def WritesRegister (x : Reg) (value : Byte) (s t : State) : Prop :=
  getV t x = value ∧ (∀ r, r ≠ x → getV t r = getV s r) ∧ OnlyRegisters s t

/-- A flag-producing instruction (R21, R104): VF is 1 when the condition holds and 0 when it does not, whatever X is; the
result is in Vx unless X is 0xF; every other register keeps its value. -/
def WritesResultAndFlag (x : Reg) (result : Nat) (condition : Prop) (s t : State) : Prop :=
  (condition → getV t VF = 1) ∧ (¬ condition → getV t VF = 0) ∧ (x ≠ VF → (getV t x).toNat = result) ∧
    (∀ r, r ≠ x → r ≠ VF → getV t r = getV s r) ∧ OnlyRegisters s t

/-- A skip instruction: PC passes one more word when the condition holds (R100); nothing but PC changes. -/
def SkipsWhen (condition : Prop) (s t : State) : Prop :=
  (condition → t.pc = skipPc s.pc) ∧ (¬ condition → t.pc = nextPc s.pc) ∧ t = { s with pc := t.pc }

/-- The whole effect of an error: one record, the default advance of PC, nothing else (R10, R193). -/
def Raised (record : Report) (s t : State) : Prop :=
  t.reports = s.reports ++ [record] ∧ t.pc = nextPc s.pc ∧ t = { s with reports := t.reports, pc := t.pc }

/-- Every byte of memory outside the `count` addresses from `first` up reads as before. -/
def SameMemoryOutside (first count : Nat) (s t : State) : Prop :=
  ∀ a, ¬ (first ≤ a ∧ a < first + count) → Memory.readByte t.mem a = Memory.readByte s.mem a

/-- The pixel bit a sprite puts on row `r`, column `c`, when it is drawn at (x, y): its row `r - y` and column `c - x`
counted with wrap on both axes, bit 7 of the row byte leftmost; false outside the sprite (R57, R162). -/
def spriteCover (rows : List Byte) (x y : Byte) (r : Fin 32) (c : Fin 64) : Bool :=
  let dr := (r.val + 32 - y.toNat % 32) % 32
  let dc := (c.val + 64 - x.toNat % 64) % 64
  decide (dc < 8) && ((rows[dr]?).map fun row => row.getLsbD (7 - dc)).getD false

/-- Some pixel that is 1 lies under a 1 bit of the sprite (R162). -/
def Collides (fb : Surface) (rows : List Byte) (x y : Byte) : Prop :=
  ∃ r c, pixel fb r c = true ∧ spriteCover rows x y r c = true

/-- Key `k` of the keypad exists and is held down in this Step (R181). -/
def KeyDown (s : State) (k : Byte) : Prop := k.toNat ≤ 15 ∧ s.inputs.held.getLsbD k.toNat = true

/-- The instructions that write VF as a flag: exactly six (R21). -/
def writesFlag : Instr → Bool
  | .addReg _ _ => true
  | .subReg _ _ => true
  | .shr _ _ => true
  | .subnReg _ _ => true
  | .shl _ _ => true
  | .drw _ _ _ => true
  | _ => false

/-- The registers an instruction names as its destination (R35, first row). -/
def namesDestination (i : Instr) (r : Reg) : Bool :=
  match i with
  | .ldImm x _ => r = x
  | .addImm x _ => r = x
  | .ldReg x _ => r = x
  | .orReg x _ => r = x
  | .andReg x _ => r = x
  | .xorReg x _ => r = x
  | .addReg x _ => r = x
  | .subReg x _ => r = x
  | .shr x _ => r = x
  | .subnReg x _ => r = x
  | .shl x _ => r = x
  | .rnd x _ => r = x
  | .ldVxDt x => r = x
  | .ldVxKey x => r = x
  | .loadRegs x => r.val ≤ x.val
  | _ => false

/-- The instructions whose rule has a `PC <- ...` of its own (R99). -/
def setsPc : Instr → Bool
  | .ret => true
  | .jp _ => true
  | .call _ => true
  | .jpV0 _ => true
  | .seImm _ _ => true
  | .sneImm _ _ => true
  | .seReg _ _ => true
  | .sneReg _ _ => true
  | .skp _ => true
  | .sknp _ => true
  | .ldVxKey _ => true
  | _ => false

/-- The instructions that read an input of the Step (R66): the key levels, the key-down events, the random byte. -/
def readsInputs : Instr → Bool
  | .skp _ => true
  | .sknp _ => true
  | .ldVxKey _ => true
  | .rnd _ _ => true
  | _ => false

/-- The one error an instruction raises in a state, from the conditions of R192. -/
def errorOf (i : Instr) (s : State) : Option Report :=
  match i with
  | .call nnn => if s.sp.val = 15 then some (.stackOverflow s.pc nnn) else none
  | .ret => if s.sp.val = 0 then some (.stackUnderflow s.pc) else none
  | .drw _ _ n =>
    if 1 ≤ n.toNat ∧ 4095 < s.i.toNat + n.toNat - 1 then some (.addrRead s.pc (max s.i.toNat 4096) s.i n.toNat) else none
  | .loadRegs x =>
    if 4095 < s.i.toNat + x.val then some (.addrRead s.pc (max s.i.toNat 4096) s.i (x.val + 1)) else none
  | .ldBcd _ => if 4095 < s.i.toNat + 2 then some (.addrWrite s.pc (max s.i.toNat 4096) s.i 3) else none
  | .storeRegs x =>
    if 4095 < s.i.toNat + x.val then some (.addrWrite s.pc (max s.i.toNat 4096) s.i (x.val + 1)) else none
  | _ => none

/-- A transition that brings no key-down event: a Tick, or a Step with an empty list (R102). -/
def bringsNoKey : Transition → Bool
  | .tick => true
  | .step inputs => inputs.keysDown.isEmpty

/-- `n` transitions one after the other. -/
def runFor : Nat → State → Result
  | 0, s => .next s
  | n + 1, s =>
    match step s with
    | .next t => runFor n t
    | .fault r => .fault r
    | .refused r => .refused r

end Sys2Proof.Machine
end

