-- ==== Sys2Proof/Certificates/Slice0/Obligations.lean ====
section
/-! DEFINITION. The statements for the provers. Each docstring names the rule of spec/ it formalises. A clause
`t = { s with … }` is a frame: every field it does not name is unchanged, all of memory and the report stream among them.
PC after the default advance is written `nextPc s.pc`; what number that is, is a statement of its own (log 10). -/

open Sys2Proof Sys2Proof.Machine

/-! ## Encoding -/

/-- Words written out from the patterns of 30_encoding.md R80, one or more of each format and class; the words of
95_test_vectors.md among them. That 0x0000 and 0x0EE0 are unknown is the spec's decision D19 (log 25). -/
def Obligations.SpecWordsDecode : Prop :=
  ([0x00E0, 0x00EE, 0x1234, 0x2300, 0x3133, 0x4133, 0x5AB0, 0x6A42, 0x7302, 0x82F0].map decodeWord =
    [.ok .cls, .ok .ret, .ok (.jp 0x234), .ok (.call 0x300), .ok (.seImm 1 0x33), .ok (.sneImm 1 0x33),
      .ok (.seReg 10 11), .ok (.ldImm 10 0x42), .ok (.addImm 3 0x02), .ok (.ldReg 2 15)]) ∧
  ([0x8AB6, 0x8ABE, 0x9AB0, 0xA20E, 0xBFFF, 0xC30F, 0xD125, 0xEF9E, 0xE4A1, 0xF30A, 0xF255, 0xF265].map decodeWord =
    [.ok (.shr 10 11), .ok (.shl 10 11), .ok (.sneReg 10 11), .ok (.ldI 0x20E), .ok (.jpV0 0xFFF), .ok (.rnd 3 0x0F),
      .ok (.drw 1 2 5), .ok (.skp 15), .ok (.sknp 4), .ok (.ldVxKey 3), .ok (.storeRegs 2), .ok (.loadRegs 2)]) ∧
  ([0x0000, 0x0EE0, 0x5123, 0x8008, 0x9121, 0xE09F, 0xFF85].map decodeWord =
    [.error (.unknownOpcode 0x0000), .error (.unknownOpcode 0x0EE0), .error (.unknownOpcode 0x5123),
      .error (.unknownOpcode 0x8008), .error (.unknownOpcode 0x9121), .error (.unknownOpcode 0xE09F),
      .error (.unknownOpcode 0xFF85)])

/-- Decode of encode is the instruction, for every instruction and every operand; also through the two bytes in memory
order (R54, R76 to R80). -/
def Obligations.DecodeOfEncode : Prop :=
  ∀ i : Instr, decodeWord (encode i) = .ok i ∧ decode (bytesOfWord (encode i)) = .ok i

/-- Encode of decode is the word: no two words are one instruction, and no bit of a word is dropped, the Y field of SHR
and SHL included (R82; log 20). -/
def Obligations.EncodeOfDecode : Prop :=
  ∀ (op : Word) (i : Instr), decodeWord op = .ok i → encode i = op

/-- The decode procedure of R79 and the opcode map of R80 agree: a word decodes to an instruction exactly when a row
matches it, that row is the instruction's own, and no word matches two rows. -/
def Obligations.DecoderAgreesWithOpcodeMap : Prop :=
  ∀ op : Word,
    (∀ i, decodeWord op = .ok i → opcodeMap.filter (·.hits op) = [i.row]) ∧
    ((∀ i, decodeWord op ≠ .ok i) → opcodeMap.filter (·.hits op) = [])

/-- The unknown words are exactly the six families of R81, and each is rejected with the word itself. That 0NNN is
unknown is the spec's decision D19 (log 25). -/
def Obligations.UnknownWordsAreTheSixFamilies : Prop :=
  ∀ op : Word, decodeWord op = .error (.unknownOpcode op) ↔
    (op.toNat / 4096 = 0 ∧ op.toNat ≠ 0x00E0 ∧ op.toNat ≠ 0x00EE) ∨
    (op.toNat / 4096 = 5 ∧ op.toNat % 16 ≠ 0) ∨
    (op.toNat / 4096 = 8 ∧ op.toNat % 16 ∈ [0x8, 0x9, 0xA, 0xB, 0xC, 0xD, 0xF]) ∨
    (op.toNat / 4096 = 9 ∧ op.toNat % 16 ≠ 0) ∨
    (op.toNat / 4096 = 14 ∧ op.toNat % 256 ∉ [0x9E, 0xA1]) ∨
    (op.toNat / 4096 = 15 ∧ op.toNat % 256 ∉ [0x07, 0x0A, 0x15, 0x18, 0x1E, 0x29, 0x33, 0x55, 0x65])

/-! ## The step -/

/-- `next` and `skip` as numbers, the wrap included, and `skip` is `next` twice; a wrapped PC always has two bytes to
fetch (R99, R100). The modulus 4095 is the spec's resolution C2, decision D1. Log 10. -/
def Obligations.NextAndSkipWrapModulo4095 : Prop :=
  ∀ p : Word, (nextPc p).toNat = (p.toNat + 2) % 4095 ∧ (skipPc p).toNat = (p.toNat + 4) % 4095 ∧
    skipPc p = nextPc (nextPc p) ∧ (nextPc p).toNat ≤ 4094

/-- A Step in RUNNING runs the instruction whose two bytes, high byte first, stand at PC: the step is `exec` of it in the
state whose inputs are those of the Step (R97, R98). That an odd PC is fetched like an even one is the spec's decision D15
(R56; log 17). With nothing scheduled the transition is free (log 2): a Step that runs the instruction under some inputs, or
a Tick. -/
def Obligations.StepRunsDecodedInstruction : Prop :=
  ∀ (s : State) (i : Instr), s.mode = .running → s.pc.toNat ≤ 4094 →
    decode [Memory.readByte s.mem s.pc.toNat, Memory.readByte s.mem (s.pc.toNat + 1)] = .ok i →
    (∀ inputs rest, s.pending = .step inputs :: rest →
      step s = exec i { s with inputs := inputs, pending := rest }) ∧
    (s.pending = [] → (∃ inputs, step s = exec i { s with inputs := inputs, draws := s.draws + 1 }) ∨
      step s = step { s with pending := [.tick], draws := s.draws + 1 })

/-- A word that is no instruction is reported with PC and the word, and is otherwise a no-op (R101). The record's form is the
spec's decision D5 (log 13). -/
def Obligations.UnknownOpcodeIsReported : Prop :=
  ∀ (s : State) (inputs : StepInputs) (rest : List Transition), s.pending = .step inputs :: rest → s.mode = .running →
    s.pc.toNat ≤ 4094 →
    (∀ i, decode [Memory.readByte s.mem s.pc.toNat, Memory.readByte s.mem (s.pc.toNat + 1)] ≠ .ok i) →
    ∃ t op, step s = .next t ∧
      op.toNat = (Memory.readByte s.mem s.pc.toNat).toNat * 256 + (Memory.readByte s.mem (s.pc.toNat + 1)).toNat ∧
      Raised (.unknownOpcode s.pc op) { s with inputs := inputs, pending := rest } t

/-- A PC that cannot supply two bytes: reported, nothing fetched or executed (R97; decision D3, log 12). -/
def Obligations.FetchBeyondMemoryIsReported : Prop :=
  ∀ (s : State) (inputs : StepInputs) (rest : List Transition), s.pending = .step inputs :: rest → s.mode = .running →
    4094 < s.pc.toNat →
    ∃ t, step s = .next t ∧ Raised (.addrFetch s.pc) { s with inputs := inputs, pending := rest } t

/-- Both transitions are enabled in every state: nothing stops the machine (R95, R108, R190). -/
def Obligations.EveryStateSteps : Prop := ∀ s : State, ∃ t, step s = .next t

/-- The report stream only grows, by at most one record a transition; a Tick and a Step in WAITING add none (R36 f,
R199). -/
def Obligations.StepReportsAtMostOneError : Prop :=
  ∀ s t : State, step s = .next t →
    (t.reports = s.reports ∨ ∃ r, t.reports = s.reports ++ [r]) ∧
    (s.mode = .waiting → t.reports = s.reports) ∧
    (∀ rest, s.pending = .tick :: rest → t.reports = s.reports)

/-! ## Control flow -/

/-- 1NNN (R111). -/
def Obligations.JumpGoesToTarget : Prop :=
  ∀ (nnn : Addr12) (s : State), ∃ t, exec (.jp nnn) s = .next t ∧ t.pc.toNat = nnn.toNat ∧ t = { s with pc := t.pc }

/-- BNNN: the sum is not reduced, so PC may lie beyond memory (R113; log 23). -/
def Obligations.JumpWithOffsetIsNotReduced : Prop :=
  ∀ (nnn : Addr12) (s : State), ∃ t, exec (.jpV0 nnn) s = .next t ∧
    t.pc.toNat = nnn.toNat + (getV s 0).toNat ∧ t = { s with pc := t.pc }

/-- 2NNN: the new entry, the target, and the overflow that leaves the stack alone (R112). That the entry is `next(PC)` is
the spec's resolution C4, decision D2 (log 11). -/
def Obligations.CallPushesReturnAddress : Prop :=
  ∀ (nnn : Addr12) (s : State),
    (s.sp.val ≠ 15 → ∃ t, exec (.call nnn) s = .next t ∧ t.sp.val = s.sp.val + 1 ∧ getStack t t.sp = nextPc s.pc ∧
      (∀ k, k ≠ t.sp → getStack t k = getStack s k) ∧ t.pc.toNat = nnn.toNat ∧
      t = { s with stack := t.stack, sp := t.sp, pc := t.pc }) ∧
    (s.sp.val = 15 → ∃ t, exec (.call nnn) s = .next t ∧ Raised (.stackOverflow s.pc nnn) s t)

/-- 00EE: PC is the newest entry, the entry stays; the underflow changes nothing but PC (R110). That the entry is loaded
with no increment is the spec's resolution C4, decision D2 (log 11). -/
def Obligations.ReturnPopsNewestEntry : Prop :=
  ∀ s : State,
    (s.sp.val ≠ 0 → ∃ t, exec .ret s = .next t ∧ t.pc = getStack s s.sp ∧ t.sp.val + 1 = s.sp.val ∧
      t = { s with sp := t.sp, pc := t.pc }) ∧
    (s.sp.val = 0 → ∃ t, exec .ret s = .next t ∧ Raised (.stackUnderflow s.pc) s t)

/-- "00EE immediately after 2NNN returns PC to the instruction following the original CALL", with the old SP (R118). -/
def Obligations.ReturnAfterCallGoesPastTheCall : Prop :=
  ∀ (nnn : Addr12) (s : State), s.sp.val < 15 → s.pc.toNat ≤ 4092 →
    ∃ t u, exec (.call nnn) s = .next t ∧ exec .ret t = .next u ∧ u.pc.toNat = s.pc.toNat + 2 ∧ u.sp = s.sp ∧
      u = { s with pc := u.pc, stack := u.stack }

/-- The four register skips (R114, R115, R116, R117): the unsigned comparison decides, nothing but PC changes. -/
def Obligations.RegisterSkips : Prop :=
  ∀ (x y : Reg) (nn : Byte) (s : State),
    (∃ t, exec (.seImm x nn) s = .next t ∧ SkipsWhen ((getV s x).toNat = nn.toNat) s t) ∧
    (∃ t, exec (.sneImm x nn) s = .next t ∧ SkipsWhen ((getV s x).toNat ≠ nn.toNat) s t) ∧
    (∃ t, exec (.seReg x y) s = .next t ∧ SkipsWhen ((getV s x).toNat = (getV s y).toNat) s t) ∧
    (∃ t, exec (.sneReg x y) s = .next t ∧ SkipsWhen ((getV s x).toNat ≠ (getV s y).toNat) s t)

/-! ## Registers -/

/-- 6XNN and 8XY0 (R125, R127). -/
def Obligations.LoadRegister : Prop :=
  ∀ (x y : Reg) (nn : Byte) (s : State),
    (∃ t, exec (.ldImm x nn) s = .next t ∧ WritesRegister x nn s t) ∧
    (∃ t, exec (.ldReg x y) s = .next t ∧ WritesRegister x (getV s y) s t)

/-- 7XNN: the sum modulo 256, and no flag: VF changes only as the destination (R126). -/
def Obligations.AddImmediateWrapsWithoutFlag : Prop :=
  ∀ (x : Reg) (nn : Byte) (s : State), ∃ t, exec (.addImm x nn) s = .next t ∧
    (getV t x).toNat = ((getV s x).toNat + nn.toNat) % 256 ∧ WritesRegister x (getV t x) s t

/-- 8XY1, 8XY2, 8XY3, bit by bit (R128, R129, R130). That VF is unchanged unless X is 0xF is the spec's decision D20
(log 16). -/
def Obligations.BitwiseOperations : Prop :=
  ∀ (x y : Reg) (s : State),
    (∃ t, exec (.orReg x y) s = .next t ∧ WritesRegister x (getV t x) s t ∧
      ∀ k, (getV t x).getLsbD k = ((getV s x).getLsbD k || (getV s y).getLsbD k)) ∧
    (∃ t, exec (.andReg x y) s = .next t ∧ WritesRegister x (getV t x) s t ∧
      ∀ k, (getV t x).getLsbD k = ((getV s x).getLsbD k && (getV s y).getLsbD k)) ∧
    (∃ t, exec (.xorReg x y) s = .next t ∧ WritesRegister x (getV t x) s t ∧
      ∀ k, (getV t x).getLsbD k = ((getV s x).getLsbD k != (getV s y).getLsbD k))

/-- 8XY4: the sum modulo 256 and the carry out of bit 7, for Y = 0xF too (R131). That VF ends as the carry, not the sum,
for X = 0xF is the spec's resolution C5, decision D26 (log 18). -/
def Obligations.AddRegistersWithCarry : Prop :=
  ∀ (x y : Reg) (s : State), ∃ t, exec (.addReg x y) s = .next t ∧
    WritesResultAndFlag x (((getV s x).toNat + (getV s y).toNat) % 256) (255 < (getV s x).toNat + (getV s y).toNat) s t

/-- 8XY5 and 8XY7: the difference modulo 256, and the strict flag, 0 for equal operands (R132, R134). That VF ends as the
flag, not the difference, for X = 0xF is the spec's resolution C5, decision D26 (log 18). -/
def Obligations.SubtractWithStrictFlag : Prop :=
  ∀ (x y : Reg) (s : State),
    (∃ t, exec (.subReg x y) s = .next t ∧
      WritesResultAndFlag x (((getV s x).toNat + 256 - (getV s y).toNat) % 256)
        ((getV s y).toNat < (getV s x).toNat) s t) ∧
    (∃ t, exec (.subnReg x y) s = .next t ∧
      WritesResultAndFlag x (((getV s y).toNat + 256 - (getV s x).toNat) % 256)
        ((getV s x).toNat < (getV s y).toNat) s t)

/-- 8XY6 and 8XYE: Vx in place by one, Y ignored, the bit shifted out in VF (R133, R135). That VF ends as that bit, not the
shifted value, for X = 0xF is the spec's resolution C5, decision D26 (log 18). -/
def Obligations.ShiftInPlaceByOne : Prop :=
  ∀ (x y : Reg) (s : State),
    (∃ t, exec (.shr x y) s = .next t ∧
      WritesResultAndFlag x ((getV s x).toNat / 2) ((getV s x).toNat % 2 = 1) s t) ∧
    (∃ t, exec (.shl x y) s = .next t ∧
      WritesResultAndFlag x ((getV s x).toNat * 2 % 256) (128 ≤ (getV s x).toNat) s t)

/-- After any of the six flag-producing instructions that raised no error, VF is 0 or 1 (R21, R36 d, R137 e). For X = 0xF
that is the spec's resolution C5, decision D26 (log 18). -/
def Obligations.FlagIsZeroOrOne : Prop :=
  ∀ (i : Instr) (s t : State), writesFlag i = true → exec i s = .next t → t.reports = s.reports →
    getV t VF = 0 ∨ getV t VF = 1

/-- No instruction writes a register it does not name as its destination, but the flag producers VF (R21, R35). -/
def Obligations.RegistersChangeOnlyAsNamed : Prop :=
  ∀ (i : Instr) (s t : State) (r : Reg), exec i s = .next t → namesDestination i r = false →
    (r = VF → writesFlag i = false) → getV t r = getV s r

/-- CXNN: the random byte of the Step, whatever it is, masked (R136; decision D13, log 3). -/
def Obligations.RandomByteIsMasked : Prop :=
  ∀ (x : Reg) (nn : Byte) (s : State), ∃ t, exec (.rnd x nn) s = .next t ∧ WritesRegister x (getV t x) s t ∧
    ∀ k, (getV t x).getLsbD k = (s.inputs.rnd.getLsbD k && nn.getLsbD k)

/-! ## Address register and memory -/

/-- ANNN (R145). -/
def Obligations.LoadAddressRegister : Prop :=
  ∀ (nnn : Addr12) (s : State), ∃ t, exec (.ldI nnn) s = .next t ∧ t.i.toNat = nnn.toNat ∧ t.pc = nextPc s.pc ∧
    t = { s with i := t.i, pc := t.pc }

/-- FX1E: modulo 65536; VF is not written, the spec's decision D20 (R146; log 16). -/
def Obligations.AddToAddressRegisterWrapsAt65536 : Prop :=
  ∀ (x : Reg) (s : State), ∃ t, exec (.addI x) s = .next t ∧ t.i.toNat = (s.i.toNat + (getV s x).toNat) % 65536 ∧
    t.pc = nextPc s.pc ∧ t = { s with i := t.i, pc := t.pc }

/-- FX29: the whole byte times 5, the spec's decision D21 for Vx above 15 (R147; log 16). -/
def Obligations.GlyphAddressIsFiveTimesVx : Prop :=
  ∀ (x : Reg) (s : State), ∃ t, exec (.ldFont x) s = .next t ∧ t.i.toNat = (getV s x).toNat * 5 ∧
    t.pc = nextPc s.pc ∧ t = { s with i := t.i, pc := t.pc }

/-- FX33: the digits at I, I+1, I+2 and no other byte; outside memory one report and no byte at all (R148; decisions D4,
D20, log 12, log 16). -/
def Obligations.DecimalDigitsAreStored : Prop :=
  ∀ (x : Reg) (s : State), Memory.wf s.mem = true →
    (s.i.toNat + 2 ≤ 4095 → ∃ t, exec (.ldBcd x) s = .next t ∧
      (Memory.readByte t.mem s.i.toNat).toNat = (getV s x).toNat / 100 ∧
      (Memory.readByte t.mem (s.i.toNat + 1)).toNat = (getV s x).toNat / 10 % 10 ∧
      (Memory.readByte t.mem (s.i.toNat + 2)).toNat = (getV s x).toNat % 10 ∧
      SameMemoryOutside s.i.toNat 3 s t ∧ t.pc = nextPc s.pc ∧ t = { s with mem := t.mem, pc := t.pc }) ∧
    (4095 < s.i.toNat + 2 → ∃ t, exec (.ldBcd x) s = .next t ∧
      Raised (.addrWrite s.pc (max s.i.toNat 4096) s.i 3) s t)

/-- FX55: `V[k]` at I + k for k = 0..X and no other byte; outside memory one report and no byte at all (R149; decisions
D4, D20, log 12, log 16). -/
def Obligations.RegistersAreStored : Prop :=
  ∀ (x : Reg) (s : State), Memory.wf s.mem = true →
    (s.i.toNat + x.val ≤ 4095 → ∃ t, exec (.storeRegs x) s = .next t ∧
      (∀ k : Reg, k.val ≤ x.val → Memory.readByte t.mem (s.i.toNat + k.val) = getV s k) ∧
      SameMemoryOutside s.i.toNat (x.val + 1) s t ∧ t.pc = nextPc s.pc ∧ t = { s with mem := t.mem, pc := t.pc }) ∧
    (4095 < s.i.toNat + x.val → ∃ t, exec (.storeRegs x) s = .next t ∧
      Raised (.addrWrite s.pc (max s.i.toNat 4096) s.i (x.val + 1)) s t)

/-- FX65: `V[k]` from I + k for k = 0..X, the registers above X kept; outside memory one report and no register changed
(R150; decisions D4, D20, log 12, log 16). -/
def Obligations.RegistersAreLoaded : Prop :=
  ∀ (x : Reg) (s : State),
    (s.i.toNat + x.val ≤ 4095 → ∃ t, exec (.loadRegs x) s = .next t ∧
      (∀ k : Reg, k.val ≤ x.val → getV t k = Memory.readByte s.mem (s.i.toNat + k.val)) ∧
      (∀ k : Reg, x.val < k.val → getV t k = getV s k) ∧ OnlyRegisters s t) ∧
    (4095 < s.i.toNat + x.val → ∃ t, exec (.loadRegs x) s = .next t ∧
      Raised (.addrRead s.pc (max s.i.toNat 4096) s.i (x.val + 1)) s t)

/-- FX55 then FX65 with the same I and X gives back the registers stored, whatever the registers held in between; those
above X keep what they held in between (R152). That I is the same in both is the spec's decision D20 (log 16). -/
def Obligations.LoadAfterStoreGivesRegistersBack : Prop :=
  ∀ (x : Reg) (s : State) (between : Vector Byte 16), Memory.wf s.mem = true → s.i.toNat + x.val ≤ 4095 →
    ∃ t u, exec (.storeRegs x) s = .next t ∧ exec (.loadRegs x) { t with v := between } = .next u ∧
      (∀ k : Reg, k.val ≤ x.val → getV u k = getV s k) ∧
      (∀ k : Reg, x.val < k.val → getV u k = between[k.val])

/-- A store is seen by the very next fetch that covers its address: once FX55 has stored two registers where PC now is,
the Step after it runs the word the two bytes spell (R64). -/
def Obligations.StoredInstructionIsFetchedNext : Prop :=
  ∀ (x : Reg) (s t : State) (i : Instr) (inputs : StepInputs) (rest : List Transition), Memory.wf s.mem = true →
    1 ≤ x.val → s.i.toNat + x.val ≤ 4095 → exec (.storeRegs x) s = .next t → s.i = nextPc s.pc →
    s.mode = .running → s.pending = .step inputs :: rest → decode [getV s 0, getV s 1] = .ok i →
    step t = exec i { t with inputs := inputs, pending := rest }

/-! ## Display -/

/-- 00E0: every pixel 0, all else unchanged, VF too (R161, R164). -/
def Obligations.ClearDisplay : Prop :=
  ∀ s : State, ∃ t, exec .cls s = .next t ∧ (∀ r c, pixel t.fb r c = false) ∧ t.pc = nextPc s.pc ∧
    t = { s with fb := t.fb, pc := t.pc }

/-- The loops of `blit_xor` and the picture agree: every pixel is XORed with the sprite bit that covers it, both axes
wrapping, and the collision is a 1 pixel under a 1 bit (R162). The loops and the picture are written independently. -/
def Obligations.BlitXorsEveryCoveredPixel : Prop :=
  ∀ (fb : Surface) (rows : List Byte) (x y : Byte), rows.length ≤ 15 →
    (∀ r c, pixel (blitXor fb rows x y).1 r c = (pixel fb r c != spriteCover rows x y r c)) ∧
    ((blitXor fb rows x y).2 = true ↔ Collides fb rows x y)

/-- Two identical blits restore the surface, and the second collides exactly where a 1 bit lay on a 0 pixel; on a clear
surface the first never collides (R163 b, c, e). -/
def Obligations.BlitTwiceRestores : Prop :=
  ∀ (fb : Surface) (rows : List Byte) (x y : Byte), rows.length ≤ 15 →
    (blitXor (blitXor fb rows x y).1 rows x y).1 = fb ∧
    ((blitXor (blitXor fb rows x y).1 rows x y).2 = true ↔
      ∃ r c, pixel fb r c = false ∧ spriteCover rows x y r c = true) ∧
    (blitXor clearSurface rows x y).2 = false

/-- DXYN: the N bytes at I drawn at (Vx, Vy), VF the collision, the coordinates the old values even when X or Y is 0xF;
N = 0 draws nothing and clears VF; outside memory one report and nothing else (R165; decisions D4, D20, D26, log 12, log 16,
log 18). -/
def Obligations.DrawSprite : Prop :=
  ∀ (x y : Reg) (n : Nibble) (s : State),
    (n.toNat = 0 ∨ s.i.toNat + n.toNat - 1 ≤ 4095 → ∃ t rows, exec (.drw x y n) s = .next t ∧
      rows.length = n.toNat ∧ (∀ k, k < n.toNat → rows[k]? = some (Memory.readByte s.mem (s.i.toNat + k))) ∧
      (∀ r c, pixel t.fb r c = (pixel s.fb r c != spriteCover rows (getV s x) (getV s y) r c)) ∧
      (Collides s.fb rows (getV s x) (getV s y) → getV t VF = 1) ∧
      (¬ Collides s.fb rows (getV s x) (getV s y) → getV t VF = 0) ∧
      (∀ r, r ≠ VF → getV t r = getV s r) ∧ t.pc = nextPc s.pc ∧ t = { s with v := t.v, fb := t.fb, pc := t.pc }) ∧
    (1 ≤ n.toNat ∧ 4095 < s.i.toNat + n.toNat - 1 → ∃ t, exec (.drw x y n) s = .next t ∧
      Raised (.addrRead s.pc (max s.i.toNat 4096) s.i n.toNat) s t)

/-! ## Keys and timers -/

/-- EX9E and EXA1: the level of the key decides; a value above 15 names no key, the spec's decision D12 (R175, R176, R181;
log 15). -/
def Obligations.KeySkips : Prop :=
  ∀ (x : Reg) (s : State),
    (∃ t, exec (.skp x) s = .next t ∧ SkipsWhen (KeyDown s (getV s x)) s t) ∧
    (∃ t, exec (.sknp x) s = .next t ∧ SkipsWhen (¬ KeyDown s (getV s x)) s t)

/-- FX0A: the oldest key-down event of this Step is taken at once; with none the machine waits on the instruction, and
nothing but MODE and WX changes (R177; decision D10, log 14). -/
def Obligations.WaitForKeyTakesEventOrWaits : Prop :=
  ∀ (x : Reg) (s : State),
    (∀ k ks, s.inputs.keysDown = k :: ks → ∃ t, exec (.ldVxKey x) s = .next t ∧ (getV t x).toNat = k.val ∧
      WritesRegister x (getV t x) s t) ∧
    (s.inputs.keysDown = [] → ∃ t, exec (.ldVxKey x) s = .next t ∧ t.mode = .waiting ∧ t.wx = x ∧
      t = { s with mode := t.mode, wx := t.wx })

/-- A Step in WAITING: no event changes nothing; an event is written to the latched register, PC passes the FX0A and the
machine runs (R102; decision D10, log 14). -/
def Obligations.WaitingStepPollsTheKeys : Prop :=
  ∀ (s : State) (inputs : StepInputs) (rest : List Transition), s.mode = .waiting → s.pending = .step inputs :: rest →
    (inputs.keysDown = [] → step s = .next { s with inputs := inputs, pending := rest }) ∧
    (∀ k ks, inputs.keysDown = k :: ks → ∃ t, step s = .next t ∧ (getV t s.wx).toNat = k.val ∧
      (∀ r, r ≠ s.wx → getV t r = getV s r) ∧ t.mode = .running ∧ t.pc = nextPc s.pc ∧
      t = { s with v := t.v, mode := t.mode, pc := t.pc, inputs := inputs, pending := rest })

/-- However long the wait: while the environment brings no key-down event, any mix of Steps and Ticks leaves all but the
timers as it is (R102, R103, R177, R208). That a Tick counts during the wait is the spec's decision D11 (log 24). -/
def Obligations.WaitLastsUntilAKeyComes : Prop :=
  ∀ (s : State) (quiet rest : List Transition), s.mode = .waiting → quiet.all bringsNoKey = true →
    s.pending = quiet ++ rest →
    ∃ t, runFor quiet.length s = .next t ∧
      t = { s with dt := t.dt, st := t.st, inputs := t.inputs, pending := rest } ∧
      t.dt.toNat ≤ s.dt.toNat ∧ t.st.toNat ≤ s.st.toNat

/-- FX07, FX15, FX18 (R178, R179, R180). -/
def Obligations.TimerMoves : Prop :=
  ∀ (x : Reg) (s : State),
    (∃ t, exec (.ldVxDt x) s = .next t ∧ WritesRegister x s.dt s t) ∧
    (∃ t, exec (.ldDtVx x) s = .next t ∧ t.dt = getV s x ∧ t.pc = nextPc s.pc ∧ t = { s with dt := t.dt, pc := t.pc }) ∧
    (∃ t, exec (.ldStVx x) s = .next t ∧ t.st = getV s x ∧ t.pc = nextPc s.pc ∧ t = { s with st := t.st, pc := t.pc })

/-- Tick: each non-zero timer minus one, in either mode, nothing else (R103; decision D11, log 24). -/
def Obligations.TickDecrementsTimers : Prop :=
  ∀ (s : State) (rest : List Transition), s.pending = .tick :: rest →
    ∃ t, step s = .next t ∧ t.dt.toNat = s.dt.toNat - 1 ∧ t.st.toNat = s.st.toNat - 1 ∧
      t = { s with dt := t.dt, st := t.st, pending := rest }

/-- A timer counts Ticks and stops at 0 (R26, R182), in either mode, the spec's decision D11 (log 24). -/
def Obligations.TicksCountDownToZero : Prop :=
  ∀ (n : Nat) (s : State) (rest : List Transition), s.pending = List.replicate n .tick ++ rest →
    ∃ t, runFor n s = .next t ∧ t.dt.toNat = s.dt.toNat - n ∧ t.st.toNat = s.st.toNat - n ∧
      t = { s with dt := t.dt, st := t.st, pending := rest }

/-! ## Reset and the whole machine -/

/-- The state after power-on (R34). STACK and WX at 0 are the spec's decisions D8 and D17 (log 8), the clear display its
decision D9 (log 9). -/
def Obligations.ResetState : Prop :=
  (∀ r, getV State.reset r = 0) ∧ State.reset.i = 0 ∧ State.reset.pc = 0x200 ∧ State.reset.sp = 0 ∧
    State.reset.dt = 0 ∧ State.reset.st = 0 ∧ State.reset.mode = .running ∧ State.reset.reports = [] ∧
    (∀ k, getStack State.reset k = 0) ∧ State.reset.wx = 0 ∧ (∀ r c, pixel State.reset.fb r c = false)

/-- Power-on with any font and any program image the loader lets through: the font at 0x000, the image at 0x200, 0x00
elsewhere, the rest as after reset (R34, R220, R221). 0x00 elsewhere is the spec's decision D6 (log 7). -/
def Obligations.PowerOnLoadsFontAndImage : Prop :=
  ∀ image : LaunchImage, image.wellFormed = true →
    (∀ a, a < 0x50 → (image.font[a]?) = some (Memory.readByte (State.powerOn image).mem a)) ∧
    (∀ a, 0x50 ≤ a → a < 0x200 → Memory.readByte (State.powerOn image).mem a = 0) ∧
    (∀ k, 0x200 + k ≤ 4095 → Memory.readByte (State.powerOn image).mem (0x200 + k) = (image.rom[k]?).getD 0) ∧
    State.powerOn image = { State.reset with mem := (State.powerOn image).mem }

/-- The invariants hold after power-on, with any font and image (R36). -/
def Obligations.PowerOnMeetsInvariants : Prop :=
  Inv State.reset ∧ ∀ image : LaunchImage, image.wellFormed = true → Inv (State.powerOn image)

/-- Every transition keeps the invariants of R36: memory in canonical form, PC in 0..4350, the return addresses held in
0..4094, and PC on the FX0A while waiting. -/
def Obligations.StepKeepsInvariants : Prop :=
  ∀ s t : State, Inv s → step s = .next t → Inv t

/-- The error table of R192 and the order of R197: an instruction appends exactly the record of its one error, when its
condition holds, and none otherwise. The records are the spec's decision D5 (log 13), the address errors D4 (log 12). -/
def Obligations.InstructionsRaiseExactlyTheirError : Prop :=
  ∀ (i : Instr) (s : State), ∃ t, exec i s = .next t ∧ t.reports = s.reports ++ (errorOf i s).toList

/-- An instruction that raises has no partial effect: one record, PC advanced, every other field as it was (R10, R193,
R200). For the address errors that is the spec's decision D4 (log 12). -/
def Obligations.ErrorsArePrecise : Prop :=
  ∀ (i : Instr) (s t : State), exec i s = .next t → t.reports ≠ s.reports → ∃ record, Raised record s t

/-- The write matrix of R35 for the instructions: each piece of state is changed by the instructions listed and by no
other; the environment's side of the interface by none (R33). That I is unchanged by DXYN, FX33, FX55 and FX65 is the
spec's decision D20 (R22; log 16). -/
def Obligations.WriteMatrix : Prop :=
  ∀ (i : Instr) (s t : State), exec i s = .next t →
    (t.i ≠ s.i → (∃ n, i = .ldI n) ∨ (∃ x, i = .addI x) ∨ (∃ x, i = .ldFont x)) ∧
    (t.sp ≠ s.sp → (∃ n, i = .call n) ∨ i = .ret) ∧
    (t.stack ≠ s.stack → ∃ n, i = .call n) ∧
    (t.dt ≠ s.dt → ∃ x, i = .ldDtVx x) ∧
    (t.st ≠ s.st → ∃ x, i = .ldStVx x) ∧
    (t.mode ≠ s.mode ∨ t.wx ≠ s.wx → ∃ x, i = .ldVxKey x) ∧
    (t.mem ≠ s.mem → (∃ x, i = .ldBcd x) ∨ (∃ x, i = .storeRegs x)) ∧
    (t.fb ≠ s.fb → i = .cls ∨ ∃ x y n, i = .drw x y n) ∧
    t.inputs = s.inputs ∧ t.pending = s.pending ∧ t.draws = s.draws

/-- "unless the instruction explicitly set PC (jump/call/return/skip), PC advances by 2": every instruction with no PC
effect of its own, and every instruction that raises, ends at `next(PC)` (R99). -/
def Obligations.PcAdvancesByDefault : Prop :=
  ∀ (i : Instr) (s t : State), exec i s = .next t → setsPc i = false ∨ t.reports ≠ s.reports → t.pc = nextPc s.pc

/-- Only EX9E, EXA1, FX0A and CXNN see the inputs of the Step: any other instruction does the same whatever the keys and
the random byte are (R66, R106). -/
def Obligations.InputsReachOnlyTheirReaders : Prop :=
  ∀ (i : Instr) (s t : State) (inputs : StepInputs), readsInputs i = false → exec i s = .next t →
    exec i { s with inputs := inputs } = .next { t with inputs := inputs }

/-- The idle loop: 1NNN at address NNN is a fixed point of Step; only the environment's list and the latched inputs move
on (R108). -/
def Obligations.JumpToSelfIsAFixedPoint : Prop :=
  ∀ (nnn : Addr12) (s : State) (inputs : StepInputs) (rest : List Transition), s.pending = .step inputs :: rest →
    s.mode = .running → s.pc.toNat = nnn.toNat → s.pc.toNat ≤ 4094 →
    decode [Memory.readByte s.mem s.pc.toNat, Memory.readByte s.mem (s.pc.toNat + 1)] = .ok (.jp nnn) →
    step s = .next { s with inputs := inputs, pending := rest }

/-- Equal memories are equal data: two memories in canonical form that read the same everywhere are the same list
(R51). -/
def Obligations.CanonicalMemoryIsUnique : Prop :=
  ∀ m m' : Memory, Memory.wf m = true → Memory.wf m' = true →
    (∀ a, Memory.readByte m a = Memory.readByte m' a) → m = m'

/-- What the environment fires next is its own (R6, R107). With nothing scheduled the step is that of the same state with
one transition scheduled, whose every part is a free value of Config without a body: whether it is a Tick, and the
key-down events, the key levels and the random byte of the Step. The form, free values after a list, is the model's choice
(log 1, log 2, log 3). -/
def Obligations.EmptyListLeavesTheTransitionOpen : Prop :=
  ∀ s : State, s.pending = [] →
    step s = step { s with
      pending := [if Config.freeIsTick s.draws then .tick
        else .step { keysDown := Config.freeKeysDown s.draws, held := Config.freeHeld s.draws,
                     rnd := Config.freeRandom s.draws }]
      draws := s.draws + 1 }
end

