-- ==== Sys2Proof/Laws/Decode.lean ====
section
/-! SUPPORT. The fields of an encoded word, format by format (30_encoding.md R76, R77). -/

namespace Sys2Proof.Laws

@[simp] theorem regOf_nibbleOf (r : Reg) : regOf (nibbleOf r) = r := by
  apply Fin.ext
  simp [regOf, nibbleOf]

@[simp] theorem nibbleOf_regOf (n : Nibble) : nibbleOf (regOf n) = n := by
  simp [regOf, nibbleOf]

theorem formNNN_toNat (c : Nibble) (nnn : Addr12) : (formNNN c nnn).toNat = c.toNat * 4096 + nnn.toNat := by
  have h := nnn.isLt
  rw [formNNN, BitVec.toNat_append, ← Nat.shiftLeft_add_eq_or_of_lt h, Nat.shiftLeft_eq]

theorem formXNN_toNat (c : Nibble) (x : Reg) (nn : Byte) :
    (formXNN c x nn).toNat = c.toNat * 4096 + x.val * 256 + nn.toNat := by
  have hx := x.isLt
  have hn := nn.isLt
  have hb : (nibbleOf x).toNat = x.val := by simp [nibbleOf]
  rw [formXNN, BitVec.toNat_append, BitVec.toNat_append, ← Nat.shiftLeft_add_eq_or_of_lt (nibbleOf x).isLt,
    ← Nat.shiftLeft_add_eq_or_of_lt hn, Nat.shiftLeft_eq, Nat.shiftLeft_eq, hb]
  omega

theorem formXYN_toNat (c : Nibble) (x y : Reg) (n : Nibble) :
    (formXYN c x y n).toNat = c.toNat * 4096 + x.val * 256 + y.val * 16 + n.toNat := by
  have hx := x.isLt
  have hy := y.isLt
  have hn := n.isLt
  have hbx : (nibbleOf x).toNat = x.val := by simp [nibbleOf]
  have hby : (nibbleOf y).toNat = y.val := by simp [nibbleOf]
  rw [formXYN, BitVec.toNat_append, BitVec.toNat_append, BitVec.toNat_append,
    ← Nat.shiftLeft_add_eq_or_of_lt (nibbleOf x).isLt, ← Nat.shiftLeft_add_eq_or_of_lt (nibbleOf y).isLt,
    ← Nat.shiftLeft_add_eq_or_of_lt hn, Nat.shiftLeft_eq, Nat.shiftLeft_eq, Nat.shiftLeft_eq, hbx, hby]
  omega

theorem classOf_eq (op : Word) : classOf op = op.toNat / 4096 := by
  have := op.isLt
  simp only [classOf, BitVec.extractLsb'_toNat, Nat.shiftRight_eq_div_pow]; omega

theorem fieldX_val (op : Word) : (fieldX op).val = op.toNat / 256 % 16 := by
  simp only [fieldX, regOf, BitVec.extractLsb'_toNat, Nat.shiftRight_eq_div_pow]

theorem fieldY_val (op : Word) : (fieldY op).val = op.toNat / 16 % 16 := by
  simp only [fieldY, regOf, BitVec.extractLsb'_toNat, Nat.shiftRight_eq_div_pow]

theorem fieldN_toNat (op : Word) : (fieldN op).toNat = op.toNat % 16 := by
  simp only [fieldN, BitVec.extractLsb'_toNat, Nat.shiftRight_eq_div_pow]; omega

theorem fieldNN_toNat (op : Word) : (fieldNN op).toNat = op.toNat % 256 := by
  simp only [fieldNN, BitVec.extractLsb'_toNat, Nat.shiftRight_eq_div_pow]; omega

theorem fieldNNN_toNat (op : Word) : (fieldNNN op).toNat = op.toNat % 4096 := by
  simp only [fieldNNN, BitVec.extractLsb'_toNat, Nat.shiftRight_eq_div_pow]; omega

@[simp] theorem classOf_formNNN (c : Nibble) (nnn : Addr12) : classOf (formNNN c nnn) = c.toNat := by
  have := nnn.isLt
  rw [classOf_eq, formNNN_toNat]; omega

@[simp] theorem fieldNNN_formNNN (c : Nibble) (nnn : Addr12) : fieldNNN (formNNN c nnn) = nnn := by
  have := nnn.isLt
  apply BitVec.eq_of_toNat_eq
  rw [fieldNNN_toNat, formNNN_toNat]; omega

@[simp] theorem classOf_formXNN (c : Nibble) (x : Reg) (nn : Byte) : classOf (formXNN c x nn) = c.toNat := by
  have := x.isLt
  have := nn.isLt
  rw [classOf_eq, formXNN_toNat]; omega

@[simp] theorem fieldX_formXNN (c : Nibble) (x : Reg) (nn : Byte) : fieldX (formXNN c x nn) = x := by
  have := x.isLt
  have := nn.isLt
  apply Fin.ext
  rw [fieldX_val, formXNN_toNat]; omega

@[simp] theorem fieldNN_formXNN (c : Nibble) (x : Reg) (nn : Byte) : fieldNN (formXNN c x nn) = nn := by
  have := nn.isLt
  apply BitVec.eq_of_toNat_eq
  rw [fieldNN_toNat, formXNN_toNat]; omega

@[simp] theorem classOf_formXYN (c : Nibble) (x y : Reg) (n : Nibble) : classOf (formXYN c x y n) = c.toNat := by
  have := x.isLt
  have := y.isLt
  have := n.isLt
  rw [classOf_eq, formXYN_toNat]; omega

@[simp] theorem fieldX_formXYN (c : Nibble) (x y : Reg) (n : Nibble) : fieldX (formXYN c x y n) = x := by
  have := x.isLt
  have := y.isLt
  have := n.isLt
  apply Fin.ext
  rw [fieldX_val, formXYN_toNat]; omega

@[simp] theorem fieldY_formXYN (c : Nibble) (x y : Reg) (n : Nibble) : fieldY (formXYN c x y n) = y := by
  have := y.isLt
  have := n.isLt
  apply Fin.ext
  rw [fieldY_val, formXYN_toNat]; omega

@[simp] theorem fieldN_formXYN (c : Nibble) (x y : Reg) (n : Nibble) : fieldN (formXYN c x y n) = n := by
  have := n.isLt
  apply BitVec.eq_of_toNat_eq
  rw [fieldN_toNat, formXYN_toNat]; omega

/-- The bytes of a word, put together again (R54). -/
@[simp] theorem wordOfBytes_bytesOfWord (op : Word) : wordOfBytes (op.extractLsb' 8 8) (op.extractLsb' 0 8) = op := by
  have := op.isLt
  apply BitVec.eq_of_toNat_eq
  rw [wordOfBytes, BitVec.toNat_append, ← Nat.shiftLeft_add_eq_or_of_lt (BitVec.isLt _), Nat.shiftLeft_eq]
  simp only [BitVec.extractLsb'_toNat, Nat.shiftRight_eq_div_pow]
  omega

/-- The decoder on the bytes of a word is the decoder on the word. -/
theorem decode_bytesOfWord (op : Word) (rest : List Byte) : decode (bytesOfWord op ++ rest) = decodeWord op := by
  simp [bytesOfWord, decode]

end Sys2Proof.Laws
end

