-- ==== Sys2Proof/Laws/State.lean ====
section
/-! SUPPORT. One lemma per field of State per named update, each true by `rfl`, so that no later proof unfolds a record
update. -/

namespace Sys2Proof.Laws

open Sys2Proof.Machine

@[simp] theorem setV_v (s : State) (r : Reg) (b : Byte) : (setV s r b).v = s.v.set r.val b r.isLt := rfl
@[simp] theorem setV_i (s : State) (r : Reg) (b : Byte) : (setV s r b).i = s.i := rfl
@[simp] theorem setV_pc (s : State) (r : Reg) (b : Byte) : (setV s r b).pc = s.pc := rfl
@[simp] theorem setV_sp (s : State) (r : Reg) (b : Byte) : (setV s r b).sp = s.sp := rfl
@[simp] theorem setV_stack (s : State) (r : Reg) (b : Byte) : (setV s r b).stack = s.stack := rfl
@[simp] theorem setV_dt (s : State) (r : Reg) (b : Byte) : (setV s r b).dt = s.dt := rfl
@[simp] theorem setV_st (s : State) (r : Reg) (b : Byte) : (setV s r b).st = s.st := rfl
@[simp] theorem setV_mode (s : State) (r : Reg) (b : Byte) : (setV s r b).mode = s.mode := rfl
@[simp] theorem setV_wx (s : State) (r : Reg) (b : Byte) : (setV s r b).wx = s.wx := rfl
@[simp] theorem setV_mem (s : State) (r : Reg) (b : Byte) : (setV s r b).mem = s.mem := rfl
@[simp] theorem setV_fb (s : State) (r : Reg) (b : Byte) : (setV s r b).fb = s.fb := rfl
@[simp] theorem setV_reports (s : State) (r : Reg) (b : Byte) : (setV s r b).reports = s.reports := rfl
@[simp] theorem setV_inputs (s : State) (r : Reg) (b : Byte) : (setV s r b).inputs = s.inputs := rfl
@[simp] theorem setV_pending (s : State) (r : Reg) (b : Byte) : (setV s r b).pending = s.pending := rfl
@[simp] theorem setV_draws (s : State) (r : Reg) (b : Byte) : (setV s r b).draws = s.draws := rfl

@[simp] theorem advance_v (s : State) : (advance s).v = s.v := rfl
@[simp] theorem advance_i (s : State) : (advance s).i = s.i := rfl
@[simp] theorem advance_pc (s : State) : (advance s).pc = nextPc s.pc := rfl
@[simp] theorem advance_sp (s : State) : (advance s).sp = s.sp := rfl
@[simp] theorem advance_stack (s : State) : (advance s).stack = s.stack := rfl
@[simp] theorem advance_dt (s : State) : (advance s).dt = s.dt := rfl
@[simp] theorem advance_st (s : State) : (advance s).st = s.st := rfl
@[simp] theorem advance_mode (s : State) : (advance s).mode = s.mode := rfl
@[simp] theorem advance_wx (s : State) : (advance s).wx = s.wx := rfl
@[simp] theorem advance_mem (s : State) : (advance s).mem = s.mem := rfl
@[simp] theorem advance_fb (s : State) : (advance s).fb = s.fb := rfl
@[simp] theorem advance_reports (s : State) : (advance s).reports = s.reports := rfl
@[simp] theorem advance_inputs (s : State) : (advance s).inputs = s.inputs := rfl
@[simp] theorem advance_pending (s : State) : (advance s).pending = s.pending := rfl
@[simp] theorem advance_draws (s : State) : (advance s).draws = s.draws := rfl

@[simp] theorem setFlag_i (s : State) (flag : Bool) : (setFlag s flag).i = s.i := rfl
@[simp] theorem setFlag_pc (s : State) (flag : Bool) : (setFlag s flag).pc = s.pc := rfl
@[simp] theorem setFlag_sp (s : State) (flag : Bool) : (setFlag s flag).sp = s.sp := rfl
@[simp] theorem setFlag_stack (s : State) (flag : Bool) : (setFlag s flag).stack = s.stack := rfl
@[simp] theorem setFlag_dt (s : State) (flag : Bool) : (setFlag s flag).dt = s.dt := rfl
@[simp] theorem setFlag_st (s : State) (flag : Bool) : (setFlag s flag).st = s.st := rfl
@[simp] theorem setFlag_mode (s : State) (flag : Bool) : (setFlag s flag).mode = s.mode := rfl
@[simp] theorem setFlag_wx (s : State) (flag : Bool) : (setFlag s flag).wx = s.wx := rfl
@[simp] theorem setFlag_mem (s : State) (flag : Bool) : (setFlag s flag).mem = s.mem := rfl
@[simp] theorem setFlag_fb (s : State) (flag : Bool) : (setFlag s flag).fb = s.fb := rfl
@[simp] theorem setFlag_reports (s : State) (flag : Bool) : (setFlag s flag).reports = s.reports := rfl
@[simp] theorem setFlag_inputs (s : State) (flag : Bool) : (setFlag s flag).inputs = s.inputs := rfl
@[simp] theorem setFlag_pending (s : State) (flag : Bool) : (setFlag s flag).pending = s.pending := rfl
@[simp] theorem setFlag_draws (s : State) (flag : Bool) : (setFlag s flag).draws = s.draws := rfl

@[simp] theorem setResultAndFlag_i (s : State) (x : Reg) (b : Byte) (flag : Bool) : (setResultAndFlag s x b flag).i = s.i := rfl
@[simp] theorem setResultAndFlag_pc (s : State) (x : Reg) (b : Byte) (flag : Bool) : (setResultAndFlag s x b flag).pc = s.pc := rfl
@[simp] theorem setResultAndFlag_sp (s : State) (x : Reg) (b : Byte) (flag : Bool) : (setResultAndFlag s x b flag).sp = s.sp := rfl
@[simp] theorem setResultAndFlag_stack (s : State) (x : Reg) (b : Byte) (flag : Bool) : (setResultAndFlag s x b flag).stack = s.stack := rfl
@[simp] theorem setResultAndFlag_dt (s : State) (x : Reg) (b : Byte) (flag : Bool) : (setResultAndFlag s x b flag).dt = s.dt := rfl
@[simp] theorem setResultAndFlag_st (s : State) (x : Reg) (b : Byte) (flag : Bool) : (setResultAndFlag s x b flag).st = s.st := rfl
@[simp] theorem setResultAndFlag_mode (s : State) (x : Reg) (b : Byte) (flag : Bool) : (setResultAndFlag s x b flag).mode = s.mode := rfl
@[simp] theorem setResultAndFlag_wx (s : State) (x : Reg) (b : Byte) (flag : Bool) : (setResultAndFlag s x b flag).wx = s.wx := rfl
@[simp] theorem setResultAndFlag_mem (s : State) (x : Reg) (b : Byte) (flag : Bool) : (setResultAndFlag s x b flag).mem = s.mem := rfl
@[simp] theorem setResultAndFlag_fb (s : State) (x : Reg) (b : Byte) (flag : Bool) : (setResultAndFlag s x b flag).fb = s.fb := rfl
@[simp] theorem setResultAndFlag_reports (s : State) (x : Reg) (b : Byte) (flag : Bool) : (setResultAndFlag s x b flag).reports = s.reports := rfl
@[simp] theorem setResultAndFlag_inputs (s : State) (x : Reg) (b : Byte) (flag : Bool) : (setResultAndFlag s x b flag).inputs = s.inputs := rfl
@[simp] theorem setResultAndFlag_pending (s : State) (x : Reg) (b : Byte) (flag : Bool) : (setResultAndFlag s x b flag).pending = s.pending := rfl
@[simp] theorem setResultAndFlag_draws (s : State) (x : Reg) (b : Byte) (flag : Bool) : (setResultAndFlag s x b flag).draws = s.draws := rfl

@[simp] theorem tickTimers_v (s : State) : (tickTimers s).v = s.v := rfl
@[simp] theorem tickTimers_i (s : State) : (tickTimers s).i = s.i := rfl
@[simp] theorem tickTimers_pc (s : State) : (tickTimers s).pc = s.pc := rfl
@[simp] theorem tickTimers_sp (s : State) : (tickTimers s).sp = s.sp := rfl
@[simp] theorem tickTimers_stack (s : State) : (tickTimers s).stack = s.stack := rfl
@[simp] theorem tickTimers_dt (s : State) : (tickTimers s).dt = countDown s.dt := rfl
@[simp] theorem tickTimers_st (s : State) : (tickTimers s).st = countDown s.st := rfl
@[simp] theorem tickTimers_mode (s : State) : (tickTimers s).mode = s.mode := rfl
@[simp] theorem tickTimers_wx (s : State) : (tickTimers s).wx = s.wx := rfl
@[simp] theorem tickTimers_mem (s : State) : (tickTimers s).mem = s.mem := rfl
@[simp] theorem tickTimers_fb (s : State) : (tickTimers s).fb = s.fb := rfl
@[simp] theorem tickTimers_reports (s : State) : (tickTimers s).reports = s.reports := rfl
@[simp] theorem tickTimers_inputs (s : State) : (tickTimers s).inputs = s.inputs := rfl
@[simp] theorem tickTimers_pending (s : State) : (tickTimers s).pending = s.pending := rfl
@[simp] theorem tickTimers_draws (s : State) : (tickTimers s).draws = s.draws := rfl

@[simp] theorem beginStep_v (s : State) (inputs : StepInputs) (rest : List Transition) : (beginStep s inputs rest).v = s.v := rfl
@[simp] theorem beginStep_i (s : State) (inputs : StepInputs) (rest : List Transition) : (beginStep s inputs rest).i = s.i := rfl
@[simp] theorem beginStep_pc (s : State) (inputs : StepInputs) (rest : List Transition) : (beginStep s inputs rest).pc = s.pc := rfl
@[simp] theorem beginStep_sp (s : State) (inputs : StepInputs) (rest : List Transition) : (beginStep s inputs rest).sp = s.sp := rfl
@[simp] theorem beginStep_stack (s : State) (inputs : StepInputs) (rest : List Transition) : (beginStep s inputs rest).stack = s.stack := rfl
@[simp] theorem beginStep_dt (s : State) (inputs : StepInputs) (rest : List Transition) : (beginStep s inputs rest).dt = s.dt := rfl
@[simp] theorem beginStep_st (s : State) (inputs : StepInputs) (rest : List Transition) : (beginStep s inputs rest).st = s.st := rfl
@[simp] theorem beginStep_mode (s : State) (inputs : StepInputs) (rest : List Transition) : (beginStep s inputs rest).mode = s.mode := rfl
@[simp] theorem beginStep_wx (s : State) (inputs : StepInputs) (rest : List Transition) : (beginStep s inputs rest).wx = s.wx := rfl
@[simp] theorem beginStep_mem (s : State) (inputs : StepInputs) (rest : List Transition) : (beginStep s inputs rest).mem = s.mem := rfl
@[simp] theorem beginStep_fb (s : State) (inputs : StepInputs) (rest : List Transition) : (beginStep s inputs rest).fb = s.fb := rfl
@[simp] theorem beginStep_reports (s : State) (inputs : StepInputs) (rest : List Transition) : (beginStep s inputs rest).reports = s.reports := rfl
@[simp] theorem beginStep_inputs (s : State) (inputs : StepInputs) (rest : List Transition) : (beginStep s inputs rest).inputs = inputs := rfl
@[simp] theorem beginStep_pending (s : State) (inputs : StepInputs) (rest : List Transition) : (beginStep s inputs rest).pending = rest := rfl
@[simp] theorem beginStep_draws (s : State) (inputs : StepInputs) (rest : List Transition) : (beginStep s inputs rest).draws = s.draws := rfl


end Sys2Proof.Laws
end

