-- ==== Sys2Proof/Laws/Memory.lean ====
section
/-! SUPPORT. Main memory: a read after a write, and the canonical form, which every memory operation keeps. -/

namespace Sys2Proof.Laws

open Sys2Proof.Machine

@[simp] theorem readByte_nil (a : Nat) : Memory.readByte [] a = unlistedByte a := rfl

theorem readByte_cons (k : Nat) (b : Byte) (rest : Memory) (a : Nat) :
    Memory.readByte ((k, b) :: rest) a = if a = k then b else Memory.readByte rest a := rfl

/-- An address below every listed one reads as unlisted. -/
theorem readByte_below {m : Memory} {lo a : Nat} (h : Memory.wfFrom lo m = true) (ha : a < lo) :
    Memory.readByte m a = unlistedByte a := by
  induction m generalizing lo with
  | nil => rfl
  | cons c rest ih =>
    obtain ⟨k, b⟩ := c
    simp only [Memory.wfFrom, Bool.and_eq_true, decide_eq_true_eq] at h
    rw [readByte_cons, if_neg (by omega)]
    exact ih h.2 (by omega)

theorem wfFrom_mono {m : Memory} {lo lo' : Nat} (h : Memory.wfFrom lo m = true) (hle : lo' ≤ lo) :
    Memory.wfFrom lo' m = true := by
  cases m with
  | nil => rfl
  | cons c rest =>
    obtain ⟨k, b⟩ := c
    simp only [Memory.wfFrom, Bool.and_eq_true, decide_eq_true_eq] at h ⊢
    exact ⟨⟨⟨by omega, h.1.1.2⟩, h.1.2⟩, h.2⟩

theorem readByte_listCell {m : Memory} {a : Nat} {b : Byte} (h : Memory.wfFrom (a + 1) m = true) (q : Nat) :
    Memory.readByte (Memory.listCell a b m) q = if q = a then b else Memory.readByte m q := by
  unfold Memory.listCell
  split
  · next hb =>
    split
    · next hq => rw [hq, readByte_below h (by omega), hb]
    · rfl
  · rfl

/-- A read after a write to a memory in canonical form: the byte written, and every other byte as before (R51, R61). -/
theorem readByte_writeByte {m : Memory} {lo : Nat} (h : Memory.wfFrom lo m = true) (a : Nat) (b : Byte) (q : Nat) :
    Memory.readByte (Memory.writeByte m a b) q = if q = a then b else Memory.readByte m q := by
  induction m generalizing lo with
  | nil => rw [Memory.writeByte, readByte_listCell rfl]
  | cons c rest ih =>
    obtain ⟨k, c⟩ := c
    have hw := h
    simp only [Memory.wfFrom, Bool.and_eq_true, decide_eq_true_eq] at h
    unfold Memory.writeByte
    split
    · next hlt =>
      refine readByte_listCell ?_ q
      simp only [Memory.wfFrom, Bool.and_eq_true, decide_eq_true_eq]
      exact ⟨⟨⟨by omega, h.1.1.2⟩, h.1.2⟩, h.2⟩
    · split
      · next heq =>
        rw [readByte_listCell (heq ▸ h.2), readByte_cons]
        split
        · rfl
        · next hq => rw [if_neg (by omega)]
      · next hne =>
        rw [readByte_cons, readByte_cons, ih h.2]
        split
        · next hq => rw [if_neg (by omega)]
        · rfl

theorem listCell_wf {m : Memory} {lo a : Nat} {b : Byte} (h : Memory.wfFrom (a + 1) m = true) (ha : a < 4096)
    (hlo : lo ≤ a) : Memory.wfFrom lo (Memory.listCell a b m) = true := by
  unfold Memory.listCell
  split
  · exact wfFrom_mono h (by omega)
  · next hb => simp [Memory.wfFrom, Config.memSize, ha, hlo, hb, h]

theorem writeByte_wfFrom {m : Memory} {lo a : Nat} (h : Memory.wfFrom lo m = true) (ha : a < 4096) (hlo : lo ≤ a)
    (b : Byte) : Memory.wfFrom lo (Memory.writeByte m a b) = true := by
  induction m generalizing lo with
  | nil => exact listCell_wf rfl ha hlo
  | cons c rest ih =>
    obtain ⟨k, c⟩ := c
    have hw := h
    simp only [Memory.wfFrom, Bool.and_eq_true, decide_eq_true_eq] at h
    unfold Memory.writeByte
    split
    · next hlt =>
      refine listCell_wf ?_ ha hlo
      simp only [Memory.wfFrom, Bool.and_eq_true, decide_eq_true_eq]
      exact ⟨⟨⟨by omega, h.1.1.2⟩, h.1.2⟩, h.2⟩
    · split
      · next heq => exact listCell_wf (heq ▸ h.2) ha hlo
      · next hne =>
        simp only [Memory.wfFrom, Bool.and_eq_true, decide_eq_true_eq]
        exact ⟨⟨h.1.1, h.1.2⟩, ih h.2 (by omega)⟩

/-- A byte written inside memory keeps the canonical form. -/
theorem writeByte_wf {m : Memory} (h : Memory.wf m = true) {a : Nat} (ha : a < 4096) (b : Byte) :
    Memory.wf (Memory.writeByte m a b) = true := writeByte_wfFrom h ha (Nat.zero_le a) b

/-- A sequence of bytes written inside memory keeps the canonical form. -/
theorem writeRange_wf {m : Memory} (h : Memory.wf m = true) {first : Nat} {bytes : List Byte}
    (hin : first + bytes.length ≤ 4096) : Memory.wf (Memory.writeRange m first bytes) = true := by
  induction bytes generalizing m first with
  | nil => exact h
  | cons b rest ih =>
    simp only [List.length_cons] at hin
    exact ih (writeByte_wf h (by omega) b) (by omega)

/-- Memory after a sequence of bytes is written: each byte at its address, every other address as before (R55, R59). -/
theorem readByte_writeRange {m : Memory} (h : Memory.wf m = true) {first : Nat} {bytes : List Byte}
    (hin : first + bytes.length ≤ 4096) (q : Nat) :
    Memory.readByte (Memory.writeRange m first bytes) q =
      if first ≤ q then (bytes[q - first]?).getD (Memory.readByte m q) else Memory.readByte m q := by
  induction bytes generalizing m first with
  | nil => simp [Memory.writeRange]
  | cons b rest ih =>
    simp only [List.length_cons] at hin
    rw [Memory.writeRange, ih (writeByte_wf h (by omega) b) (by omega), readByte_writeByte h]
    rcases Nat.lt_trichotomy q first with hq | hq | hq
    · rw [if_neg (by omega), if_neg (by omega), if_neg (by omega)]
    · subst hq; simp
    · have hi : q - first = (q - (first + 1)) + 1 := by omega
      rw [if_pos (by omega), if_neg (by omega), if_pos (by omega), hi, List.getElem?_cons_succ]

/-- The range check in numbers (R58). -/
theorem inMemory_iff (first count : Nat) : inMemory first count = true ↔ count = 0 ∨ first + count ≤ 4096 := by
  simp only [inMemory, Config.memSize, Bool.or_eq_true, beq_iff_eq, decide_eq_true_eq]

@[simp] theorem readRange_length (m : Memory) (first count : Nat) : (Memory.readRange m first count).length = count := by
  simp [Memory.readRange]

theorem readRange_getElem (m : Memory) (first count k : Nat) (h : k < count) :
    (Memory.readRange m first count)[k]? = some (Memory.readByte m (first + k)) := by
  simp [Memory.readRange, h]

/-- A read is refused exactly when its range leaves memory (R58). -/
theorem read?_eq (m : Memory) (first count : Nat) : Memory.read? m first count =
    if count = 0 ∨ first + count ≤ 4096 then some (Memory.readRange m first count) else none := by
  simp only [Memory.read?, inMemory_iff]

/-- A write is refused exactly when its range leaves memory (R58). -/
theorem write?_eq (m : Memory) (first : Nat) (bytes : List Byte) : Memory.write? m first bytes =
    if bytes.length = 0 ∨ first + bytes.length ≤ 4096 then some (Memory.writeRange m first bytes) else none := by
  simp only [Memory.write?, inMemory_iff]

/-- A store that is not refused keeps the canonical form. -/
theorem write?_wf {m m' : Memory} {first : Nat} {bytes : List Byte} (h : Memory.wf m = true)
    (hw : Memory.write? m first bytes = some m') : Memory.wf m' = true := by
  rw [write?_eq] at hw
  split at hw
  · next hin =>
    obtain rfl := Option.some.inj hw
    rcases hin with h0 | hin
    · rw [List.length_eq_zero_iff.mp h0]; exact h
    · exact writeRange_wf h hin
  · cases hw

/-- All that a store at I does (R58, R151). -/
theorem storeAtI_eq_some {s t : State} {bytes : List Byte} (h : storeAtI s bytes = some t) :
    Memory.write? s.mem s.i.toNat bytes = some t.mem ∧ t = { s with mem := t.mem } := by
  unfold storeAtI at h
  cases hw : Memory.write? s.mem s.i.toNat bytes with
  | none => simp [hw] at h
  | some m => simp only [hw, Option.map_some, Option.some.injEq] at h; subst h; exact ⟨rfl, rfl⟩

/-- The memory of the reset state is in canonical form. -/
theorem reset_mem_wf : Memory.wf State.reset.mem = true := rfl

/-- Power-on with an image the loader lets through gives a memory in canonical form (R67, R221). -/
theorem powerOnMemory_wf {image : LaunchImage} (h : image.wellFormed = true) :
    Memory.wf (powerOnMemory image) = true := by
  simp only [LaunchImage.wellFormed, LaunchImage.fontFits, LaunchImage.romFits, Config.fontLen, Config.romMax,
    Bool.and_eq_true, beq_iff_eq, decide_eq_true_eq] at h
  refine writeRange_wf (writeRange_wf rfl ?_) ?_
  · simp [Config.fontBase]; omega
  · simp [Config.progBase]; omega

/-- The word placed for the host's check keeps the canonical form. -/
theorem placeWord_mem_wf {s : State} (h : Memory.wf s.mem = true) (op : Word) :
    Memory.wf (placeWord s op).mem = true := by
  refine writeRange_wf h ?_
  have : (fetchAddress s).toNat ≤ 4094 := by
    unfold fetchAddress; split
    · decide
    · omega
  simp [bytesOfWord]; omega

end Sys2Proof.Laws
end

