-- ==== Sys2Proof/Laws/Registers.lean ====
section
/-! SUPPORT. What the register, stack and program-counter operations do, said once. -/

namespace Sys2Proof.Laws

open Sys2Proof.Machine

@[simp] theorem getV_setV_self (s : State) (r : Reg) (b : Byte) : getV (setV s r b) r = b := by
  simp [getV, setV]

theorem getV_setV_of_ne (s : State) {r q : Reg} (b : Byte) (h : q ≠ r) : getV (setV s r b) q = getV s q := by
  have hv : r.val ≠ q.val := fun e => h (Fin.ext e.symm)
  simp [getV, setV, hv]

/-- A register after a write, both cases at once. -/
theorem getV_setV (s : State) (r q : Reg) (b : Byte) : getV (setV s r b) q = if q = r then b else getV s q := by
  split
  · next h => rw [h, getV_setV_self]
  · next h => exact getV_setV_of_ne s b h

@[simp] theorem getV_advance (s : State) (q : Reg) : getV (advance s) q = getV s q := rfl

@[simp] theorem getV_setFlag_VF (s : State) (flag : Bool) : getV (setFlag s flag) VF = flagByte flag := by
  simp [setFlag]

theorem getV_setFlag_of_ne (s : State) {q : Reg} (flag : Bool) (h : q ≠ VF) : getV (setFlag s flag) q = getV s q :=
  getV_setV_of_ne s _ h

@[simp] theorem getV_setResultAndFlag_VF (s : State) (x : Reg) (b : Byte) (flag : Bool) :
    getV (setResultAndFlag s x b flag) VF = flagByte flag := getV_setFlag_VF _ _

/-- The result of a flag-producing instruction survives when its register is not VF (R104). -/
theorem getV_setResultAndFlag_result (s : State) {x : Reg} (b : Byte) (flag : Bool) (h : x ≠ VF) :
    getV (setResultAndFlag s x b flag) x = b := by
  rw [setResultAndFlag, getV_setFlag_of_ne _ _ h, getV_setV_self]

theorem getV_setResultAndFlag_other (s : State) {x q : Reg} (b : Byte) (flag : Bool) (hx : q ≠ x) (hf : q ≠ VF) :
    getV (setResultAndFlag s x b flag) q = getV s q := by
  rw [setResultAndFlag, getV_setFlag_of_ne _ _ hf, getV_setV_of_ne _ _ hx]

/-- A flag is exactly 0 or 1 (R21). -/
theorem flagByte_eq (flag : Bool) : flagByte flag = 0 ∨ flagByte flag = 1 := by cases flag <;> simp [flagByte]

/-- `next(p)` as a number (R99). -/
theorem nextPc_toNat (p : Word) : (nextPc p).toNat = (p.toNat + 2) % 4095 := by
  simp only [nextPc, Config.instrLen, Config.pcWrap, BitVec.toNat_ofNat]
  omega

/-- `skip(p)` as a number (R100). -/
theorem skipPc_toNat (p : Word) : (skipPc p).toNat = (p.toNat + 4) % 4095 := by
  simp only [skipPc, Config.instrLen, Config.pcWrap, BitVec.toNat_ofNat]
  omega

/-- All that a push does (R112). -/
theorem pushReturn_eq_some {s t : State} {a : Word} (h : pushReturn s a = some t) :
    s.sp.val < 15 ∧ t.sp.val = s.sp.val + 1 ∧ getStack t t.sp = a ∧
      (∀ k : Fin 16, k ≠ t.sp → getStack t k = getStack s k) ∧ t = { s with stack := t.stack, sp := t.sp } := by
  unfold pushReturn at h
  split at h
  · next hlt =>
    obtain rfl := Option.some.inj h
    refine ⟨hlt, rfl, by simp [getStack], fun k hk => ?_, rfl⟩
    have hne : s.sp.val + 1 ≠ k.val := fun e => hk (Fin.ext e.symm)
    simp [getStack, hne]
  · cases h

/-- A push is refused exactly when SP is 15 (R112). -/
theorem pushReturn_eq_none {s : State} {a : Word} : pushReturn s a = none ↔ s.sp.val = 15 := by
  unfold pushReturn
  split
  · next h => simp only [Config.spMax] at h; simp; omega
  · next h => simp only [Config.spMax] at h; simp; omega

/-- All that a pop does (R110). -/
theorem popReturn_eq_some {s t : State} {a : Word} (h : popReturn s = some (a, t)) :
    0 < s.sp.val ∧ a = getStack s s.sp ∧ t.sp.val + 1 = s.sp.val ∧ t = { s with sp := t.sp } := by
  unfold popReturn at h
  split at h
  · cases h
  · next hne =>
    obtain ⟨rfl, rfl⟩ := Prod.mk.inj (Option.some.inj h)
    exact ⟨by omega, rfl, by simp only []; omega, rfl⟩

/-- A pop is refused exactly when SP is 0 (R110). -/
theorem popReturn_eq_none {s : State} : popReturn s = none ↔ s.sp.val = 0 := by
  unfold popReturn; split <;> simp_all

/-- `loadFrom` changes registers only (R150). -/
theorem loadFrom_frame (s : State) (k : Nat) (bytes : List Byte) :
    loadFrom s k bytes = { s with v := (loadFrom s k bytes).v } := by
  induction bytes generalizing s k with
  | nil => rfl
  | cons b rest ih => rw [loadFrom, ih]; split <;> rfl

@[simp] theorem loadFrom_i (s : State) (k : Nat) (bytes : List Byte) : (loadFrom s k bytes).i = s.i := by
  rw [loadFrom_frame]
@[simp] theorem loadFrom_pc (s : State) (k : Nat) (bytes : List Byte) : (loadFrom s k bytes).pc = s.pc := by
  rw [loadFrom_frame]
@[simp] theorem loadFrom_sp (s : State) (k : Nat) (bytes : List Byte) : (loadFrom s k bytes).sp = s.sp := by
  rw [loadFrom_frame]
@[simp] theorem loadFrom_stack (s : State) (k : Nat) (bytes : List Byte) : (loadFrom s k bytes).stack = s.stack := by
  rw [loadFrom_frame]
@[simp] theorem loadFrom_dt (s : State) (k : Nat) (bytes : List Byte) : (loadFrom s k bytes).dt = s.dt := by
  rw [loadFrom_frame]
@[simp] theorem loadFrom_st (s : State) (k : Nat) (bytes : List Byte) : (loadFrom s k bytes).st = s.st := by
  rw [loadFrom_frame]
@[simp] theorem loadFrom_mode (s : State) (k : Nat) (bytes : List Byte) : (loadFrom s k bytes).mode = s.mode := by
  rw [loadFrom_frame]
@[simp] theorem loadFrom_wx (s : State) (k : Nat) (bytes : List Byte) : (loadFrom s k bytes).wx = s.wx := by
  rw [loadFrom_frame]
@[simp] theorem loadFrom_mem (s : State) (k : Nat) (bytes : List Byte) : (loadFrom s k bytes).mem = s.mem := by
  rw [loadFrom_frame]
@[simp] theorem loadFrom_fb (s : State) (k : Nat) (bytes : List Byte) : (loadFrom s k bytes).fb = s.fb := by
  rw [loadFrom_frame]
@[simp] theorem loadFrom_reports (s : State) (k : Nat) (bytes : List Byte) : (loadFrom s k bytes).reports = s.reports := by
  rw [loadFrom_frame]
@[simp] theorem loadFrom_inputs (s : State) (k : Nat) (bytes : List Byte) : (loadFrom s k bytes).inputs = s.inputs := by
  rw [loadFrom_frame]
@[simp] theorem loadFrom_pending (s : State) (k : Nat) (bytes : List Byte) : (loadFrom s k bytes).pending = s.pending := by
  rw [loadFrom_frame]
@[simp] theorem loadFrom_draws (s : State) (k : Nat) (bytes : List Byte) : (loadFrom s k bytes).draws = s.draws := by
  rw [loadFrom_frame]

/-- The registers after `loadFrom`: byte `r - k` where the list reaches register `r`, else the old value (R150). -/
theorem getV_loadFrom (s : State) (k : Nat) (bytes : List Byte) (r : Reg) :
    getV (loadFrom s k bytes) r = if k ≤ r.val then (bytes[r.val - k]?).getD (getV s r) else getV s r := by
  induction bytes generalizing s k with
  | nil => simp [loadFrom]
  | cons b rest ih =>
    have hr := r.isLt
    rw [loadFrom, ih]
    rcases Nat.lt_trichotomy r.val k with h | h | h
    · rw [if_neg (by omega), if_neg (by omega)]
      split
      · exact getV_setV_of_ne _ _ (fun e => by simp [e] at h)
      · rfl
    · rw [if_neg (by omega), if_pos (by omega), dif_pos (by omega)]
      subst h
      simp
    · have hne : r ≠ ⟨k, by omega⟩ := fun e => by simp [e] at h
      have hi : r.val - k = (r.val - (k + 1)) + 1 := by omega
      rw [if_pos (by omega), if_pos (by omega), dif_pos (by omega), getV_setV_of_ne _ _ hne, hi, List.getElem?_cons_succ]

/-- The bytes FX55 stores: as many as registers named (R149). -/
@[simp] theorem registersUpTo_length (s : State) (x : Reg) : (registersUpTo s x).length = x.val + 1 := by
  have := x.isLt
  simp [registersUpTo]

/-- Byte k that FX55 stores is `V[k]` (R149). -/
theorem registersUpTo_getElem (s : State) (x k : Reg) (h : k.val ≤ x.val) :
    (registersUpTo s x)[k.val]? = some (getV s k) := by
  have hk := k.isLt
  simp [registersUpTo, getV, Nat.lt_succ_of_le h]

end Sys2Proof.Laws
end

