-- ==== Sys2Proof/Laws/Surface.lean ====
section
/-! SUPPORT. The display surface: a pixel after a write, and the blit loop unfolded once. -/

namespace Sys2Proof.Laws

open Sys2Proof.Machine

/-- A pixel after a pixel is written. -/
theorem pixel_setPixel (fb : Surface) (r q : Fin 32) (c d : Fin 64) (b : Bool) :
    pixel (setPixel fb r c b) q d = if q = r ∧ d = c then b else pixel fb q d := by
  have hr := r.isLt
  have hq := q.isLt
  have hc := c.isLt
  have hd := d.isLt
  unfold pixel setPixel
  by_cases h1 : q = r
  · subst h1
    by_cases h2 : d = c
    · subst h2; simp
    · have : c.val ≠ d.val := fun e => h2 (Fin.ext e.symm)
      simp [h2, this]
  · have : r.val ≠ q.val := fun e => h1 (Fin.ext e.symm)
    simp [h1, this]

@[simp] theorem pixel_clearSurface (r : Fin 32) (c : Fin 64) : pixel clearSurface r c = false := by
  have hr := r.isLt
  have hc := c.isLt
  simp [pixel, clearSurface, Surface.blank]

/-- Two surfaces with the same pixels are equal. -/
theorem surface_ext {f g : Surface} (h : ∀ r c, pixel f r c = pixel g r c) : f = g := by
  apply Vector.ext
  intro r hr
  apply Vector.ext
  intro c hc
  exact h ⟨r, hr⟩ ⟨c, hc⟩

/-- One pass of the inner loop (R162): the pixel under the sprite bit is XORed, every other pixel stays. -/
theorem pixel_blitPixel (x y r : Nat) (row : Byte) (acc : Surface × Bool) (c : Nat) (q : Fin 32) (d : Fin 64) :
    pixel (blitPixel x y r row acc c).1 q d =
      if q = wrapRow (y + r) ∧ d = wrapCol (x + c) then pixel acc.1 q d ^^ spriteBit row c else pixel acc.1 q d := by
  simp only [blitPixel, pixel_setPixel]
  split
  · next h => rw [h.1, h.2]
  · rfl

theorem blitPixel_collision (x y r : Nat) (row : Byte) (acc : Surface × Bool) (c : Nat) :
    (blitPixel x y r row acc c).2 =
      (acc.2 || (pixel acc.1 (wrapRow (y + r)) (wrapCol (x + c)) && spriteBit row c)) := rfl

@[simp] theorem blitRows_nil (x y r : Nat) (acc : Surface × Bool) : blitRows x y r [] acc = acc := rfl

theorem blitRows_cons (x y r : Nat) (row : Byte) (rows : List Byte) (acc : Surface × Bool) :
    blitRows x y r (row :: rows) acc = blitRows x y (r + 1) rows (blitRow x y r row acc) := rfl

end Sys2Proof.Laws
end

