-- ==== Sys2Proof/Laws/Exec.lean ====
section
/-! SUPPORT. The meanings with more than one case, each case as an equation under its condition in numbers, so that no
later proof unfolds a match. -/

namespace Sys2Proof.Laws

open Sys2Proof.Machine

/-! ### Calls and returns (R110, R112) -/

theorem execCall_of_full {s : State} (nnn : Addr12) (h : s.sp.val = 15) :
    execCall nnn s = raise (.stackOverflow s.pc nnn) s := by
  simp only [execCall, pushReturn_eq_none.mpr h]

theorem execCall_of_push {s t : State} (nnn : Addr12) (h : pushReturn s (nextPc s.pc) = some t) :
    execCall nnn s = jumpTo (addrWord nnn) t := by
  simp only [execCall, h]

theorem execRet_of_empty {s : State} (h : s.sp.val = 0) : execRet s = raise (.stackUnderflow s.pc) s := by
  simp only [execRet, popReturn_eq_none.mpr h]

theorem execRet_of_pop {s t : State} {a : Word} (h : popReturn s = some (a, t)) : execRet s = jumpTo a t := by
  simp only [execRet, h]

/-- A push succeeds below 15. -/
theorem exists_pushReturn {s : State} (a : Word) (h : s.sp.val ≠ 15) : ∃ t, pushReturn s a = some t :=
  Option.ne_none_iff_exists'.mp fun e => h (pushReturn_eq_none.mp e)

/-- A pop succeeds above 0. -/
theorem exists_popReturn {s : State} (h : s.sp.val ≠ 0) : ∃ a t, popReturn s = some (a, t) := by
  obtain ⟨⟨a, t⟩, ht⟩ := Option.ne_none_iff_exists'.mp fun e => h (popReturn_eq_none.mp e)
  exact ⟨a, t, ht⟩

/-! ### Accesses at I (R58, R148, R149, R150, R165) -/

theorem storeAtI_of_fits {s : State} {bytes : List Byte} (h : s.i.toNat + bytes.length ≤ 4096) :
    storeAtI s bytes = some { s with mem := Memory.writeRange s.mem s.i.toNat bytes } := by
  simp only [storeAtI, write?_eq, if_pos (Or.inr h), Option.map_some]

theorem storeAtI_of_outside {s : State} {bytes : List Byte} (hne : bytes.length ≠ 0)
    (h : 4096 < s.i.toNat + bytes.length) : storeAtI s bytes = none := by
  have : ¬ (bytes.length = 0 ∨ s.i.toNat + bytes.length ≤ 4096) := by omega
  simp only [storeAtI, write?_eq, if_neg this, Option.map_none]

theorem readAtI_of_fits {s : State} {count : Nat} (h : count = 0 ∨ s.i.toNat + count ≤ 4096) :
    readAtI s count = some (Memory.readRange s.mem s.i.toNat count) := by
  simp only [readAtI, read?_eq, if_pos h]

theorem readAtI_of_outside {s : State} {count : Nat} (h : ¬ (count = 0 ∨ s.i.toNat + count ≤ 4096)) :
    readAtI s count = none := by
  simp only [readAtI, read?_eq, if_neg h]

theorem execLdBcd_of_fits {s : State} (x : Reg) (h : s.i.toNat + 3 ≤ 4096) :
    execLdBcd x s =
      complete { s with mem := Memory.writeRange s.mem s.i.toNat (decimalDigits (getV s x)) } := by
  simp only [execLdBcd, storeAtI_of_fits (bytes := decimalDigits (getV s x)) h]

theorem execLdBcd_of_outside {s : State} (x : Reg) (h : 4096 < s.i.toNat + 3) :
    execLdBcd x s = raise (addrWriteRecord s 3) s := by
  simp only [execLdBcd, storeAtI_of_outside (bytes := decimalDigits (getV s x)) (by simp [decimalDigits]) h]

theorem execStoreRegs_of_fits {s : State} (x : Reg) (h : s.i.toNat + (x.val + 1) ≤ 4096) :
    execStoreRegs x s = complete { s with mem := Memory.writeRange s.mem s.i.toNat (registersUpTo s x) } := by
  simp only [execStoreRegs, storeAtI_of_fits (bytes := registersUpTo s x) (by rw [registersUpTo_length]; exact h)]

theorem execStoreRegs_of_outside {s : State} (x : Reg) (h : 4096 < s.i.toNat + (x.val + 1)) :
    execStoreRegs x s = raise (addrWriteRecord s (x.val + 1)) s := by
  simp only [execStoreRegs, storeAtI_of_outside (bytes := registersUpTo s x) (by rw [registersUpTo_length]; omega)
    (by rw [registersUpTo_length]; exact h)]

theorem execLoadRegs_of_fits {s : State} (x : Reg) (h : s.i.toNat + (x.val + 1) ≤ 4096) :
    execLoadRegs x s = complete (loadFrom s 0 (Memory.readRange s.mem s.i.toNat (x.val + 1))) := by
  simp only [execLoadRegs, readAtI_of_fits (Or.inr h)]

theorem execLoadRegs_of_outside {s : State} (x : Reg) (h : 4096 < s.i.toNat + (x.val + 1)) :
    execLoadRegs x s = raise (addrReadRecord s (x.val + 1)) s := by
  simp only [execLoadRegs, readAtI_of_outside (s := s) (count := x.val + 1) (by omega)]

theorem execDrw_of_fits {s : State} (x y : Reg) {n : Nibble} (h : n.toNat = 0 ∨ s.i.toNat + n.toNat ≤ 4096) :
    execDrw x y n s =
      let drawn := blitXor s.fb (Memory.readRange s.mem s.i.toNat n.toNat) (getV s x) (getV s y)
      complete (setFlag { s with fb := drawn.1 } drawn.2) := by
  simp only [execDrw, readAtI_of_fits h]

theorem execDrw_of_outside {s : State} (x y : Reg) {n : Nibble} (h : ¬ (n.toNat = 0 ∨ s.i.toNat + n.toNat ≤ 4096)) :
    execDrw x y n s = raise (addrReadRecord s n.toNat) s := by
  simp only [execDrw, readAtI_of_outside h]

/-! ### The key wait (R177) -/

theorem execLdVxKey_of_event {s : State} (x : Reg) {k : Key} {ks : List Key} (h : s.inputs.keysDown = k :: ks) :
    execLdVxKey x s = complete (setV s x (keyByte k)) := by
  simp only [execLdVxKey, h]

theorem execLdVxKey_of_none {s : State} (x : Reg) (h : s.inputs.keysDown = []) :
    execLdVxKey x s = .next { s with wx := x, mode := .waiting } := by
  simp only [execLdVxKey, h]

@[simp] theorem keyByte_toNat (k : Key) : (keyByte k).toNat = k.val := by
  have := k.isLt
  simp only [keyByte, BitVec.toNat_ofNat]
  omega

end Sys2Proof.Laws
end

