-- ==== Sys2Proof/Laws/PerInstr.lean ====
section
/-! SUPPORT. Statements per instruction: the word the encoder gives an instruction is a word of that instruction's row of
the opcode map (30_encoding.md R80), so the encoder, written from the formats of R77, and the masks agree. -/

namespace Sys2Proof.Laws.EncodesItsRow

/-- The word of `i` matches the row of `i`, and that row is one of the 34 of the opcode map. -/
def Statement (i : Instr) : Prop := i.row ∈ opcodeMap ∧ i.row.hits (encode i) = true

@[simp] theorem nibble_and_F (n : Nibble) : n &&& 0xF#4 = n := BitVec.and_allOnes

@[simp] theorem byte_and_FF (b : Byte) : b &&& 0xFF#8 = b := BitVec.and_allOnes

/-- The mask of format NNN leaves the class nibble. -/
theorem hits_formNNN (c : Nibble) (nnn : Addr12) :
    OpcodeRow.hits ⟨0xF000, c ++ (0 : Addr12)⟩ (formNNN c nnn) = true := by
  rw [OpcodeRow.hits, beq_iff_eq, formNNN,
    show (0xF000 : Word) = (0xF : Nibble) ++ (0 : Addr12) from rfl,
    BitVec.and_append]
  simp

/-- The mask of format XNN leaves the class nibble. -/
theorem hits_formXNN_class (c : Nibble) (x : Reg) (nn : Byte) :
    OpcodeRow.hits ⟨0xF000, c ++ (0 : Nibble) ++ (0 : Byte)⟩ (formXNN c x nn) = true := by
  rw [OpcodeRow.hits, beq_iff_eq, formXNN,
    show (0xF000 : Word) = (0xF : Nibble) ++ (0 : Nibble) ++ (0 : Byte) from rfl,
    BitVec.and_append, BitVec.and_append]
  simp

/-- The mask of format X leaves the class nibble and the low byte. -/
theorem hits_formXNN_low (c : Nibble) (x : Reg) (nn : Byte) :
    OpcodeRow.hits ⟨0xF0FF, c ++ (0 : Nibble) ++ nn⟩ (formXNN c x nn) = true := by
  rw [OpcodeRow.hits, beq_iff_eq, formXNN,
    show (0xF0FF : Word) = (0xF : Nibble) ++ (0 : Nibble) ++ (0xFF : Byte) from rfl,
    BitVec.and_append, BitVec.and_append]
  simp

/-- The mask of format XYN leaves the class nibble. -/
theorem hits_formXYN_class (c : Nibble) (x y : Reg) (n : Nibble) :
    OpcodeRow.hits ⟨0xF000, c ++ (0 : Nibble) ++ (0 : Nibble) ++ (0 : Nibble)⟩ (formXYN c x y n) = true := by
  rw [OpcodeRow.hits, beq_iff_eq, formXYN,
    show (0xF000 : Word) = (0xF : Nibble) ++ (0 : Nibble) ++ (0 : Nibble) ++ (0 : Nibble) from rfl,
    BitVec.and_append, BitVec.and_append, BitVec.and_append]
  simp

/-- The mask of format XY leaves the class nibble and the last nibble. -/
theorem hits_formXYN_low (c : Nibble) (x y : Reg) (n : Nibble) :
    OpcodeRow.hits ⟨0xF00F, c ++ (0 : Nibble) ++ (0 : Nibble) ++ n⟩ (formXYN c x y n) = true := by
  rw [OpcodeRow.hits, beq_iff_eq, formXYN,
    show (0xF00F : Word) = (0xF : Nibble) ++ (0 : Nibble) ++ (0 : Nibble) ++ (0xF : Nibble) from rfl,
    BitVec.and_append, BitVec.and_append, BitVec.and_append]
  simp

/-- The row of an instruction is the row of the instruction with zero operands. -/
theorem mem_opcodeMap {i j : Instr} (hj : j ∈ oneOfEach) (h : j.row = i.row) : i.row ∈ opcodeMap :=
  List.mem_map.mpr ⟨j, hj, h⟩

theorem cls : Statement .cls :=
  ⟨mem_opcodeMap (j := .cls) (by decide) rfl, rfl⟩

theorem ret : Statement .ret :=
  ⟨mem_opcodeMap (j := .ret) (by decide) rfl, rfl⟩

theorem jp (nnn : Addr12) : Statement (.jp nnn) :=
  ⟨mem_opcodeMap (j := .jp 0) (by decide) rfl, hits_formNNN 0x1 nnn⟩

theorem call (nnn : Addr12) : Statement (.call nnn) :=
  ⟨mem_opcodeMap (j := .call 0) (by decide) rfl, hits_formNNN 0x2 nnn⟩

theorem seImm (x : Reg) (nn : Byte) : Statement (.seImm x nn) :=
  ⟨mem_opcodeMap (j := .seImm 0 0) (by decide) rfl, hits_formXNN_class 0x3 x nn⟩

theorem sneImm (x : Reg) (nn : Byte) : Statement (.sneImm x nn) :=
  ⟨mem_opcodeMap (j := .sneImm 0 0) (by decide) rfl, hits_formXNN_class 0x4 x nn⟩

theorem seReg (x : Reg) (y : Reg) : Statement (.seReg x y) :=
  ⟨mem_opcodeMap (j := .seReg 0 0) (by decide) rfl, hits_formXYN_low 0x5 x y 0x0⟩

theorem ldImm (x : Reg) (nn : Byte) : Statement (.ldImm x nn) :=
  ⟨mem_opcodeMap (j := .ldImm 0 0) (by decide) rfl, hits_formXNN_class 0x6 x nn⟩

theorem addImm (x : Reg) (nn : Byte) : Statement (.addImm x nn) :=
  ⟨mem_opcodeMap (j := .addImm 0 0) (by decide) rfl, hits_formXNN_class 0x7 x nn⟩

theorem ldReg (x : Reg) (y : Reg) : Statement (.ldReg x y) :=
  ⟨mem_opcodeMap (j := .ldReg 0 0) (by decide) rfl, hits_formXYN_low 0x8 x y 0x0⟩

theorem orReg (x : Reg) (y : Reg) : Statement (.orReg x y) :=
  ⟨mem_opcodeMap (j := .orReg 0 0) (by decide) rfl, hits_formXYN_low 0x8 x y 0x1⟩

theorem andReg (x : Reg) (y : Reg) : Statement (.andReg x y) :=
  ⟨mem_opcodeMap (j := .andReg 0 0) (by decide) rfl, hits_formXYN_low 0x8 x y 0x2⟩

theorem xorReg (x : Reg) (y : Reg) : Statement (.xorReg x y) :=
  ⟨mem_opcodeMap (j := .xorReg 0 0) (by decide) rfl, hits_formXYN_low 0x8 x y 0x3⟩

theorem addReg (x : Reg) (y : Reg) : Statement (.addReg x y) :=
  ⟨mem_opcodeMap (j := .addReg 0 0) (by decide) rfl, hits_formXYN_low 0x8 x y 0x4⟩

theorem subReg (x : Reg) (y : Reg) : Statement (.subReg x y) :=
  ⟨mem_opcodeMap (j := .subReg 0 0) (by decide) rfl, hits_formXYN_low 0x8 x y 0x5⟩

theorem shr (x : Reg) (y : Reg) : Statement (.shr x y) :=
  ⟨mem_opcodeMap (j := .shr 0 0) (by decide) rfl, hits_formXYN_low 0x8 x y 0x6⟩

theorem subnReg (x : Reg) (y : Reg) : Statement (.subnReg x y) :=
  ⟨mem_opcodeMap (j := .subnReg 0 0) (by decide) rfl, hits_formXYN_low 0x8 x y 0x7⟩

theorem shl (x : Reg) (y : Reg) : Statement (.shl x y) :=
  ⟨mem_opcodeMap (j := .shl 0 0) (by decide) rfl, hits_formXYN_low 0x8 x y 0xE⟩

theorem sneReg (x : Reg) (y : Reg) : Statement (.sneReg x y) :=
  ⟨mem_opcodeMap (j := .sneReg 0 0) (by decide) rfl, hits_formXYN_low 0x9 x y 0x0⟩

theorem ldI (nnn : Addr12) : Statement (.ldI nnn) :=
  ⟨mem_opcodeMap (j := .ldI 0) (by decide) rfl, hits_formNNN 0xA nnn⟩

theorem jpV0 (nnn : Addr12) : Statement (.jpV0 nnn) :=
  ⟨mem_opcodeMap (j := .jpV0 0) (by decide) rfl, hits_formNNN 0xB nnn⟩

theorem rnd (x : Reg) (nn : Byte) : Statement (.rnd x nn) :=
  ⟨mem_opcodeMap (j := .rnd 0 0) (by decide) rfl, hits_formXNN_class 0xC x nn⟩

theorem drw (x : Reg) (y : Reg) (n : Nibble) : Statement (.drw x y n) :=
  ⟨mem_opcodeMap (j := .drw 0 0 0) (by decide) rfl, hits_formXYN_class 0xD x y n⟩

theorem skp (x : Reg) : Statement (.skp x) :=
  ⟨mem_opcodeMap (j := .skp 0) (by decide) rfl, hits_formXNN_low 0xE x 0x9E⟩

theorem sknp (x : Reg) : Statement (.sknp x) :=
  ⟨mem_opcodeMap (j := .sknp 0) (by decide) rfl, hits_formXNN_low 0xE x 0xA1⟩

theorem ldVxDt (x : Reg) : Statement (.ldVxDt x) :=
  ⟨mem_opcodeMap (j := .ldVxDt 0) (by decide) rfl, hits_formXNN_low 0xF x 0x07⟩

theorem ldVxKey (x : Reg) : Statement (.ldVxKey x) :=
  ⟨mem_opcodeMap (j := .ldVxKey 0) (by decide) rfl, hits_formXNN_low 0xF x 0x0A⟩

theorem ldDtVx (x : Reg) : Statement (.ldDtVx x) :=
  ⟨mem_opcodeMap (j := .ldDtVx 0) (by decide) rfl, hits_formXNN_low 0xF x 0x15⟩

theorem ldStVx (x : Reg) : Statement (.ldStVx x) :=
  ⟨mem_opcodeMap (j := .ldStVx 0) (by decide) rfl, hits_formXNN_low 0xF x 0x18⟩

theorem addI (x : Reg) : Statement (.addI x) :=
  ⟨mem_opcodeMap (j := .addI 0) (by decide) rfl, hits_formXNN_low 0xF x 0x1E⟩

theorem ldFont (x : Reg) : Statement (.ldFont x) :=
  ⟨mem_opcodeMap (j := .ldFont 0) (by decide) rfl, hits_formXNN_low 0xF x 0x29⟩

theorem ldBcd (x : Reg) : Statement (.ldBcd x) :=
  ⟨mem_opcodeMap (j := .ldBcd 0) (by decide) rfl, hits_formXNN_low 0xF x 0x33⟩

theorem storeRegs (x : Reg) : Statement (.storeRegs x) :=
  ⟨mem_opcodeMap (j := .storeRegs 0) (by decide) rfl, hits_formXNN_low 0xF x 0x55⟩

theorem loadRegs (x : Reg) : Statement (.loadRegs x) :=
  ⟨mem_opcodeMap (j := .loadRegs 0) (by decide) rfl, hits_formXNN_low 0xF x 0x65⟩

end Sys2Proof.Laws.EncodesItsRow
end

