-- ==== Sys2Proof/Laws/Step.lean ====
section
/-! SUPPORT. What a step is, case by case: the environment's next transition and MODE decide (R96, R107). -/

namespace Sys2Proof.Laws

open Sys2Proof.Machine

theorem step_tick {s : State} {rest : List Transition} (h : s.pending = .tick :: rest) :
    step s = .next (tickTimers { s with pending := rest }) := by simp [step, transition, fire, h]

theorem step_running {s : State} {inputs : StepInputs} {rest : List Transition} (h : s.pending = .step inputs :: rest)
    (hm : s.mode = .running) : step s = runInstruction (beginStep s inputs rest) := by
  simp [step, transition, fire, h, stepCore, hm]

theorem step_waiting {s : State} {inputs : StepInputs} {rest : List Transition} (h : s.pending = .step inputs :: rest)
    (hm : s.mode = .waiting) : step s = .next (pollKey (beginStep s inputs rest)) := by
  simp [step, transition, fire, h, stepCore, hm]

/-- With nothing scheduled the step is that of the state in which the free transition is scheduled (R107). -/
theorem step_unscheduled {s : State} (h : s.pending = []) :
    step s = step { s with pending := [unscheduledTransition s.draws], draws := s.draws + 1 } := by
  simp only [step, transition, h]
  cases unscheduledTransition s.draws <;> rfl

/-- The fetch depends on PC and memory alone (R97). -/
theorem fetch_congr {s t : State} (hpc : t.pc = s.pc) (hmem : t.mem = s.mem) : fetch t = fetch s := by
  simp [fetch, hpc, hmem]

@[simp] theorem fetch_beginStep (s : State) (inputs : StepInputs) (rest : List Transition) :
    fetch (beginStep s inputs rest) = fetch s := rfl

@[simp] theorem fetch_tickTimers (s : State) : fetch (tickTimers s) = fetch s := rfl

theorem fetch_of_le {s : State} (h : s.pc.toNat ≤ 4094) : fetch s =
    some (wordOfBytes (Memory.readByte s.mem s.pc.toNat) (Memory.readByte s.mem (s.pc.toNat + 1))) := by
  rw [fetch, if_neg (by omega)]

theorem fetch_of_gt {s : State} (h : 4094 < s.pc.toNat) : fetch s = none := by rw [fetch, if_pos h]

/-- A Step in RUNNING, from what its fetch and decode give (R97, R98, R101). -/
theorem runInstruction_of_decoded {s : State} {op : Word} {i : Instr} (hf : fetch s = some op)
    (hd : decodeWord op = .ok i) : runInstruction s = exec i s := by
  simp only [runInstruction, hf, hd]

theorem runInstruction_of_unknown {s : State} {op : Word} {e : DecodeError} (hf : fetch s = some op)
    (hd : decodeWord op = .error e) : runInstruction s = raise (.unknownOpcode s.pc op) s := by
  simp only [runInstruction, hf, hd]

theorem runInstruction_of_no_fetch {s : State} (hf : fetch s = none) :
    runInstruction s = raise (.addrFetch s.pc) s := by
  simp only [runInstruction, hf]

/-- A word is decoded, or rejected with the word itself (R81). -/
theorem decodeWord_total (op : Word) : (∃ i, decodeWord op = .ok i) ∨ decodeWord op = .error (.unknownOpcode op) := by
  unfold decodeWord; split <;> simp

/-- What the wait's poll does (R102). -/
theorem pollKey_of_none {s : State} (h : s.inputs.keysDown = []) : pollKey s = s := by simp [pollKey, h]

theorem pollKey_of_event {s : State} {k : Key} {ks : List Key} (h : s.inputs.keysDown = k :: ks) :
    pollKey s = { advance (setV s s.wx (keyByte k)) with mode := .running } := by simp [pollKey, h]

/-- A timer's count as a number: down to 0 and no further (R103). -/
theorem countDown_toNat (b : Byte) : (countDown b).toNat = b.toNat - 1 := by
  have hb := b.isLt
  unfold countDown
  split
  · next h => simp [h]
  · next h =>
    have : b.toNat ≠ 0 := fun e => h (BitVec.eq_of_toNat_eq (by simpa using e))
    rw [BitVec.toNat_sub]
    simp
    omega

end Sys2Proof.Laws
end

