-- ==== Sys2Proof/Tests/Slice0.lean ====
section
/-! SUPPORT. The model's own tests. The expected values are those of spec/95_test_vectors.md (the vector's id stands in
the comment) and of the encodings of 30_encoding.md R80; the last part has, for every statement with hypotheses, states
and operands that meet them, at the bounds of each clause. -/

-- One theorem at a time: each evaluation in the kernel would otherwise hold a thread and its memory.
set_option Elab.async false

namespace Sys2Proof.Tests

open Sys2Proof Sys2Proof.Machine

/-! ## What is ill-formed is refused -/

/-- One word of each of the six families of R81, and more of 95_test_vectors.md, "Unknown words and decoding". -/
def unknownWords : List Word :=
  [0x0000, 0x00E1, 0x00EF, 0x0123, 0x0EE0, 0x5121, 0x512F, 0x8008, 0x8009, 0x800A, 0x800B, 0x800C, 0x800D, 0x800F] ++
  [0x9121, 0xE000, 0xE09F, 0xE19D, 0xE0A0, 0xF000, 0xF00B, 0xF016, 0xF01F, 0xF030, 0xF054, 0xF066, 0xF0FF, 0xFF75, 0xFF85]

theorem test_illFormed_words : unknownWords.all (fun op => !wordWellFormed op) = true := by decide +kernel

theorem test_wellFormed_words : [0x00E0, 0x00EE, 0x5AB0, 0x8ABE, 0xB000, 0xD000, 0xEFA1, 0xFF65].all wordWellFormed = true := by
  decide +kernel

theorem test_illFormed_font : (LaunchImage.mk (List.replicate 79 0) []).fontFits = false ∧
    (LaunchImage.mk (List.replicate 81 0) []).wellFormed = false := by decide +kernel

theorem test_illFormed_rom : (LaunchImage.mk customaryFont (List.replicate 3585 0)).romFits = false := by
  rw [LaunchImage.romFits, List.length_replicate]
  decide +kernel

theorem test_wellFormed_image : (LaunchImage.mk customaryFont []).wellFormed = true ∧
    (LaunchImage.mk customaryFont (List.replicate 3584 0)).wellFormed = true := by
  rw [LaunchImage.wellFormed, LaunchImage.wellFormed, LaunchImage.romFits, LaunchImage.romFits, List.length_replicate]
  decide +kernel

/-! ## Decoding: a word of every row of R80, written out from its pattern -/

theorem test_decode_fixed : [0x00E0, 0x00EE].map decodeWord = [.ok .cls, .ok .ret] := by decide +kernel

theorem test_decode_NNN : [0x1234, 0x2300, 0xA20E, 0xB300].map decodeWord =
    [.ok (.jp 0x234), .ok (.call 0x300), .ok (.ldI 0x20E), .ok (.jpV0 0x300)] := by decide +kernel

theorem test_decode_XNN : [0x3133, 0x4134, 0x6A42, 0x7302, 0xC30F].map decodeWord =
    [.ok (.seImm 1 0x33), .ok (.sneImm 1 0x34), .ok (.ldImm 10 0x42), .ok (.addImm 3 2), .ok (.rnd 3 0x0F)] := by decide +kernel

theorem test_decode_XY : [0x5AB0, 0x82F0, 0x8121, 0x8122, 0x8123, 0x8014, 0x8015, 0x8AB6, 0x8017, 0x8ABE, 0x9AB0].map
    decodeWord = [.ok (.seReg 10 11), .ok (.ldReg 2 15), .ok (.orReg 1 2), .ok (.andReg 1 2), .ok (.xorReg 1 2),
      .ok (.addReg 0 1), .ok (.subReg 0 1), .ok (.shr 10 11), .ok (.subnReg 0 1), .ok (.shl 10 11),
      .ok (.sneReg 10 11)] := by decide +kernel

theorem test_decode_XYN : decodeWord 0xD125 = .ok (.drw 1 2 5) := by decide +kernel

theorem test_decode_X : [0xEF9E, 0xEFA1, 0xF507, 0xF30A, 0xF515, 0xF518, 0xF21E, 0xF029, 0xF033, 0xF255, 0xFF65].map
    decodeWord = [.ok (.skp 15), .ok (.sknp 15), .ok (.ldVxDt 5), .ok (.ldVxKey 3), .ok (.ldDtVx 5), .ok (.ldStVx 5),
      .ok (.addI 2), .ok (.ldFont 0), .ok (.ldBcd 0), .ok (.storeRegs 2), .ok (.loadRegs 15)] := by decide +kernel

theorem test_decode_unknown : unknownWords.map decodeWord = unknownWords.map fun op => .error (.unknownOpcode op) := by
  decide +kernel

/-- R87: `0x200: 6A42` is the bytes 6A, 42. -/
theorem test_decode_bytes : decode [0x6A, 0x42] = .ok (.ldImm 10 0x42) ∧ decode [0x6A] = .error .truncated ∧
    bytesOfWord 0x6A42 = [0x6A, 0x42] ∧ decodeTableWord 16 0x6A42 = some (.ldImm 10 0x42) := by decide +kernel

/-! ## One transition -/

/-- `s` with some registers loaded. -/
def holding (s : State) (registers : List (Reg × Byte)) : State := registers.foldl (fun t p => setV t p.1 p.2) s

/-- `s` with bytes in memory. -/
def poke (s : State) (a : Nat) (bytes : List Byte) : State := { s with mem := Memory.writeRange s.mem a bytes }

/-- `s` with the word `op` at PC and one Step coming. -/
def ready (s : State) (op : Word) (inputs : StepInputs := StepInputs.quiet) : State :=
  { poke s s.pc.toNat (bytesOfWord op) with pending := [.step inputs] }

/-- The next state of a transition. -/
def nextOf : Result → Option State
  | .next t => some t
  | .fault _ => none
  | .refused _ => none

/-- The state after one Step on the word `op`. -/
def after (s : State) (op : Word) (inputs : StepInputs := StepInputs.quiet) : Option State :=
  nextOf (step (ready s op inputs))

/-- The registers named, PC and the reports, after one Step on the word `op`. -/
def seen (registers : List Reg) (s : State) (op : Word) (inputs : StepInputs := StepInputs.quiet) :
    Option (List Byte × Word × List Report) :=
  (after s op inputs).map fun t => (registers.map (getV t), t.pc, t.reports)

/-- The state after power-on. -/
abbrev s0 : State := State.reset

/-! ### Flow -/

/-- F1 -/
theorem test_jp : seen [] s0 0x1234 = some ([], 0x234, []) := by decide +kernel

/-- F2 -/
theorem test_call : (after s0 0x2300).map (fun t => (t.sp, getStack t 1, t.pc)) = some (1, 0x202, 0x300) := by decide +kernel

/-- F5 -/
theorem test_call_full : (after { s0 with sp := 15 } 0x2300).map (fun t => (t.sp, t.stack == s0.stack, t.pc, t.reports)) =
    some (15, true, 0x202, [.stackOverflow 0x200 0x300]) := by decide +kernel

/-- F3 -/
theorem test_ret : (after { s0 with sp := 2, pc := 0x300, stack := s0.stack.set 2 0x456 } 0x00EE).map
    (fun t => (t.sp, getStack t 2, t.pc, t.reports)) = some (1, 0x456, 0x456, []) := by decide +kernel

/-- F4 -/
theorem test_ret_empty : (after s0 0x00EE).map (fun t => (t.sp, t.pc, t.reports)) =
    some (0, 0x202, [.stackUnderflow 0x200]) := by decide +kernel

/-- F6, F6b -/
theorem test_jpV0 : seen [] (holding s0 [(0, 0x10)]) 0xB300 = some ([], 0x310, []) ∧
    seen [] (holding s0 [(0, 0xFF)]) 0xBFFF = some ([], 0x10FE, []) := by decide +kernel

/-- F6b, the next Step -/
theorem test_fetch_beyond : (nextOf (step { s0 with pc := 0x10FE, pending := [.step StepInputs.quiet] })).map
    (fun t => (t.pc, t.reports)) = some (0x101, [.addrFetch 0x10FE]) := by decide +kernel

/-- F7, F7b -/
theorem test_seImm : seen [] (holding s0 [(1, 0x33)]) 0x3133 = some ([], 0x204, []) ∧
    seen [] (holding s0 [(1, 0x34)]) 0x3133 = some ([], 0x202, []) := by decide +kernel

/-- F7c, F7d -/
theorem test_sneImm : seen [] (holding s0 [(1, 0x33)]) 0x4133 = some ([], 0x202, []) ∧
    seen [] (holding s0 [(1, 0x34)]) 0x4133 = some ([], 0x204, []) := by decide +kernel

/-- F8, F8b -/
theorem test_seReg : seen [] (holding s0 [(2, 7), (3, 7)]) 0x5230 = some ([], 0x204, []) ∧
    seen [] (holding s0 [(2, 7), (3, 8)]) 0x5230 = some ([], 0x202, []) := by decide +kernel

/-- F8c, F8d -/
theorem test_sneReg : seen [] (holding s0 [(2, 7), (3, 8)]) 0x9230 = some ([], 0x204, []) ∧
    seen [] (holding s0 [(2, 7), (3, 7)]) 0x9230 = some ([], 0x202, []) := by decide +kernel

/-- S3 -/
theorem test_unknown : seen [1] (holding s0 [(1, 9)]) 0x5123 = some ([9], 0x202, [.unknownOpcode 0x200 0x5123]) := by
  decide +kernel

/-- R99: `next(4093) = 0`, `next(4094) = 1`; R114: a taken skip at 4092 gives 1. -/
theorem test_pc_wrap : nextPc 4092 = 4094 ∧ nextPc 4093 = 0 ∧ nextPc 4094 = 1 ∧ nextPc 4095 = 2 ∧ nextPc 4350 = 257 ∧
    skipPc 4092 = 1 := by decide +kernel

/-! ### Arithmetic and logic -/

/-- A1, A1b -/
theorem test_ldImm : seen [10] s0 0x6A42 = some ([0x42], 0x202, []) ∧ seen [15] s0 0x6FFF = some ([0xFF], 0x202, []) := by
  decide +kernel

/-- A2, A3b -/
theorem test_addImm : seen [3, 15] (holding s0 [(3, 0xFF)]) 0x7302 = some ([1, 0], 0x202, []) ∧
    seen [15] (holding s0 [(15, 0xFE)]) 0x7F03 = some ([1], 0x202, []) := by decide +kernel

/-- A4, A4b -/
theorem test_ldReg : seen [0] (holding s0 [(1, 0x99)]) 0x8010 = some ([0x99], 0x202, []) ∧
    seen [2] (holding s0 [(15, 1)]) 0x82F0 = some ([1], 0x202, []) := by decide +kernel

/-- The start state of A5, A6, A7. -/
def bits : State := holding s0 [(0, 0xF0), (1, 0x3C), (15, 0x55)]

/-- A5 -/
theorem test_orReg : seen [0, 15] bits 0x8011 = some ([0xFC, 0x55], 0x202, []) := by decide +kernel

/-- A6 -/
theorem test_andReg : seen [0, 15] bits 0x8012 = some ([0x30, 0x55], 0x202, []) := by decide +kernel

/-- A7 -/
theorem test_xorReg : seen [0, 15] bits 0x8013 = some ([0xCC, 0x55], 0x202, []) := by decide +kernel

/-- A9, A8 -/
theorem test_addReg : seen [0, 15] (holding s0 [(0, 0xFF), (1, 1)]) 0x8014 = some ([0, 1], 0x202, []) ∧
    seen [0, 15] (holding s0 [(0, 0x0A), (1, 5), (15, 7)]) 0x8014 = some ([0x0F, 0], 0x202, []) := by decide +kernel

/-- A11b, A11c -/
theorem test_addReg_VF : seen [15] (holding s0 [(15, 0xF0), (1, 0x20)]) 0x8F14 = some ([1], 0x202, []) ∧
    seen [0, 15] (holding s0 [(0, 0xF0), (15, 0x20)]) 0x80F4 = some ([0x10, 1], 0x202, []) := by decide +kernel

/-- A12b, A13 -/
theorem test_subReg : seen [0, 15] (holding s0 [(0, 3), (1, 5)]) 0x8015 = some ([0xFE, 0], 0x202, []) ∧
    seen [0, 15] (holding s0 [(0, 7), (1, 7)]) 0x8015 = some ([0, 0], 0x202, []) := by decide +kernel

/-- A14, A14c -/
theorem test_subReg_VF : seen [15] (holding s0 [(15, 9), (1, 3)]) 0x8F15 = some ([1], 0x202, []) ∧
    seen [0, 15] (holding s0 [(0, 5), (15, 3)]) 0x80F5 = some ([2, 1], 0x202, []) := by decide +kernel

/-- A15, A17b -/
theorem test_shr : seen [0, 15, 1] (holding s0 [(0, 5), (1, 0xAA)]) 0x8016 = some ([2, 1, 0xAA], 0x202, []) ∧
    seen [15] (holding s0 [(15, 2)]) 0x8F06 = some ([0], 0x202, []) := by decide +kernel

/-- A18b, A20 -/
theorem test_subnReg : seen [0, 15] (holding s0 [(0, 5), (1, 3)]) 0x8017 = some ([0xFE, 0], 0x202, []) ∧
    seen [15] (holding s0 [(15, 3), (1, 9)]) 0x8F17 = some ([1], 0x202, []) := by decide +kernel

/-- A21, A23b -/
theorem test_shl : seen [0, 15, 1] (holding s0 [(0, 0x81), (1, 0xAA)]) 0x801E = some ([2, 1, 0xAA], 0x202, []) ∧
    seen [15] (holding s0 [(15, 0x7F)]) 0x8F0E = some ([0], 0x202, []) := by decide +kernel

/-- A24 -/
theorem test_rnd : seen [3] s0 0xC30F { keysDown := [], held := 0, rnd := 0xA7 } = some ([7], 0x202, []) := by decide +kernel

/-! ### Address register and memory -/

/-- The bytes from `a` up, PC, I and the reports, after one Step on the word `op`. -/
def stored (a count : Nat) (s : State) (op : Word) : Option (List Byte × Word × Word × List Report) :=
  (after s op).map fun t => (Memory.readRange t.mem a count, t.pc, t.i, t.reports)

/-- M1b -/
theorem test_ldI : (after s0 0xAFFF).map (·.i) = some 0x0FFF := by decide +kernel

/-- M2b, M2c -/
theorem test_addI : (after (holding { s0 with i := 0x0FFF } [(2, 1)]) 0xF21E).map (fun t => (t.i, getV t VF, t.reports)) =
    some (0x1000, 0, []) ∧ (after (holding { s0 with i := 0xFFFF } [(2, 2)]) 0xF21E).map (·.i) = some 1 := by decide +kernel

/-- M3, M3c -/
theorem test_ldFont : (after (holding s0 [(0, 0x0A)]) 0xF029).map (·.i) = some 0x32 ∧
    (after (holding s0 [(0, 0xFF)]) 0xF029).map (·.i) = some 0x4FB := by decide +kernel

/-- M4, M5 -/
theorem test_ldBcd : stored 0x300 3 (holding { s0 with i := 0x300 } [(0, 254)]) 0xF033 = some ([2, 5, 4], 0x202, 0x300, []) ∧
    stored 0xFFD 3 (holding { s0 with i := 0xFFD } [(0, 123)]) 0xF033 = some ([1, 2, 3], 0x202, 0xFFD, []) := by decide +kernel

/-- M5b -/
theorem test_ldBcd_outside : stored 0xFFD 3 (holding { s0 with i := 0xFFE } [(0, 123)]) 0xF033 =
    some ([0, 0, 0], 0x202, 0xFFE, [.addrWrite 0x200 0x1000 0xFFE 3]) := by decide +kernel

/-- M6 -/
theorem test_storeRegs : stored 0x400 4 (holding { s0 with i := 0x400 } [(0, 0x11), (1, 0x22), (2, 0x33), (3, 0x44)]) 0xF255 =
    some ([0x11, 0x22, 0x33, 0], 0x202, 0x400, []) := by decide +kernel

/-- M6d -/
theorem test_storeRegs_outside : stored 0xFF0 16 (holding { s0 with i := 0xFF1 } [(0, 1)]) 0xFF55 =
    some (List.replicate 16 0, 0x202, 0xFF1, [.addrWrite 0x200 0x1000 0xFF1 16]) := by decide +kernel

/-- M7 -/
theorem test_loadRegs : seen [0, 1, 2, 3] (holding (poke { s0 with i := 0x300 } 0x300 [2, 5, 4, 9]) [(3, 0x77)]) 0xF265 =
    some ([2, 5, 4, 0x77], 0x202, []) := by decide +kernel

/-- M7b -/
theorem test_loadRegs_outside : seen [0, 1] (holding (poke { s0 with i := 0xFFF } 0xFFF [0x5A]) [(0, 8)]) 0xF165 =
    some ([8, 0], 0x202, [.addrRead 0x200 0x1000 0xFFF 2]) := by decide +kernel

/-! ### Display -/

/-- The surface with exactly the pixels listed, (row, column), on. -/
def lit (pixels : List (Fin 32 × Fin 64)) : Surface := pixels.foldl (fun fb p => setPixel fb p.1 p.2 true) Surface.blank

/-- Whether the display is exactly `pixels`, VF and the reports, after one Step on the word `op`. -/
def drawn (pixels : List (Fin 32 × Fin 64)) (s : State) (op : Word) : Option (Bool × Byte × List Report) :=
  (after s op).map fun t => (decide (t.fb = lit pixels), getV t VF, t.reports)

/-- DS1 -/
theorem test_cls : drawn [] (holding { s0 with fb := lit [(3, 4), (31, 63)] } [(15, 9)]) 0x00E0 = some (true, 9, []) := by
  decide +kernel

/-- DS5 (S4): both axes wrap -/
theorem test_drw_wrap : drawn [(31, 63), (31, 0), (31, 1), (31, 2), (31, 3), (31, 4), (31, 5), (31, 6),
      (0, 63), (0, 0), (0, 1), (0, 2), (0, 3), (0, 4), (0, 5), (0, 6)]
    (holding (poke { s0 with i := 0x300 } 0x300 [0xFF, 0xFF]) [(0, 63), (1, 31)]) 0xD012 = some (true, 0, []) := by decide +kernel

/-- DS3 and DS7: a 1 pixel under a 1 bit collides; no rows clear VF at any I -/
theorem test_drw_flag : drawn [] (poke { s0 with i := 0x300, fb := lit [(0, 0)] } 0x300 [0x80]) 0xD011 = some (true, 1, []) ∧
    drawn [(0, 0)] (holding { s0 with i := 0xFFFF, fb := lit [(0, 0)] } [(15, 0x77)]) 0xD010 = some (true, 0, []) := by
  decide +kernel

/-! ### Keys and timers -/

/-- No event, the levels given. -/
def levels (held : BitVec 16) : StepInputs := { keysDown := [], held := held, rnd := 0 }

/-- Key-down events, no level. -/
def events (keys : List Key) : StepInputs := { keysDown := keys, held := 0, rnd := 0 }

/-- K1, K3 -/
theorem test_skp : seen [] (holding s0 [(4, 0x0A)]) 0xE49E (levels 0x0400) = some ([], 0x204, []) ∧
    seen [] (holding s0 [(4, 0x1A)]) 0xE49E (levels 0xFFFF) = some ([], 0x202, []) := by decide +kernel

/-- K2b, K3b -/
theorem test_sknp : seen [] (holding s0 [(4, 0x0A)]) 0xE4A1 (levels 0x0400) = some ([], 0x202, []) ∧
    seen [] (holding s0 [(4, 0x1A)]) 0xE4A1 (levels 0xFFFF) = some ([], 0x204, []) := by decide +kernel

/-- K5b: a level is not an event -/
theorem test_ldVxKey_waits : (after s0 0xF30A (levels 0x0020)).map (fun t => (t.mode, t.wx, t.pc)) =
    some (.waiting, 3, 0x200) := by decide +kernel

/-- K5 -/
theorem test_ldVxKey_event : (after s0 0xF30A (events [0xC])).map (fun t => (t.mode, getV t 3, t.pc)) =
    some (.running, 0x0C, 0x202) := by decide +kernel

/-- K4's end state, with DT = 5 -/
def waitingForKey : State := { ready s0 0xF30A with mode := .waiting, wx := 3, dt := 5 }

/-- K4b, K4d -/
theorem test_waiting_step : nextOf (step { waitingForKey with pending := [.step (levels 0xFFFF)] }) =
      some { waitingForKey with inputs := levels 0xFFFF, pending := [] } ∧
    (nextOf (step { waitingForKey with pending := [.step (events [7, 2])] })).map (fun t => (t.mode, getV t 3, t.pc)) =
      some (.running, 7, 0x202) := by decide +kernel

/-- K4c, K9b: a Tick in either mode -/
theorem test_tick : nextOf (step { waitingForKey with pending := [.tick] }) =
      some { waitingForKey with dt := 4, pending := [] } ∧
    (nextOf (step { s0 with st := 255, pending := [.tick] })).map (fun t => (t.dt, t.st)) = some (0, 254) := by decide +kernel

/-- K6 -/
theorem test_ldVxDt : seen [5] { s0 with dt := 0x2A } 0xF507 = some ([0x2A], 0x202, []) := by decide +kernel

/-- K7 -/
theorem test_ldDtVx : (after (holding s0 [(5, 0x3C)]) 0xF515).map (·.dt) = some 0x3C := by decide +kernel

/-- K8 -/
theorem test_ldStVx : (after (holding s0 [(5, 5)]) 0xF518).map (·.st) = some 5 := by decide +kernel

/-! ### Power-on, and the host's fetch word -/

/-- R222, R52: glyph A, the last byte of the font, and 0x00 after it. -/
theorem test_font : Memory.readRange State.reset.mem 0x32 5 = [0xF0, 0x90, 0xF0, 0x90, 0x90] ∧
    Memory.readRange State.reset.mem 0x4F 2 = [0x80, 0x00] := by decide +kernel

/-- R220, R221: a font and an image of one's own. -/
theorem test_powerOn : Memory.readRange (State.powerOn ⟨List.replicate 80 7, [0x60, 0x0A]⟩).mem 0x4F 2 = [7, 0] ∧
    Memory.readRange (State.powerOn ⟨List.replicate 80 7, [0x60, 0x0A]⟩).mem 0x1FF 4 = [0, 0x60, 0x0A, 0] := by decide +kernel

theorem test_withFetchWord : (nextOf (step (State.reset.withFetchWord 16 0x6A42))).map (fun t => (getV t 10, t.pc)) =
    some (0x42, 0x202) := by decide +kernel

/-- S6: the two Steps of a call and its return. -/
theorem test_call_return : ((after s0 0x2300).bind fun t => after t 0x00EE).map (fun u => (u.pc, u.sp)) = some (0x202, 0) := by
  decide +kernel

/-! ## Every hypothesis can be met

One theorem for each statement that has hypotheses, `hyp_<statement>`, on concrete states and operands. A clause
`exec i s = .next _` names the state by `rfl`. -/

/-- A state at PC = `pc` with the word `op` there and one Step coming. -/
def readyAt (pc op : Word) : State := ready { s0 with pc := pc } op

theorem hyp_EncodeOfDecode : decodeWord 0x8AB6 = .ok (.shr 10 11) ∧ decodeWord 0xFF65 = .ok (.loadRegs 15) := by decide +kernel

theorem hyp_DecoderAgreesWithOpcodeMap : (∃ i, decodeWord 0xD125 = .ok i) ∧ ∀ i, decodeWord 0x0EE0 ≠ .ok i := by
  refine ⟨⟨.drw 1 2 5, by decide +kernel⟩, fun i h => ?_⟩
  rw [show decodeWord 0x0EE0 = .error (.unknownOpcode 0x0EE0) from by decide +kernel] at h
  cases h

/-- At the last PC that can fetch, at an odd PC, and with no transition scheduled. -/
theorem hyp_StepRunsDecodedInstruction :
    (∀ s ∈ [readyAt 4094 0x6A42, readyAt 0x201 0x6A42], s.mode = .running ∧ s.pc.toNat ≤ 4094 ∧
      decode [Memory.readByte s.mem s.pc.toNat, Memory.readByte s.mem (s.pc.toNat + 1)] = .ok (.ldImm 10 0x42) ∧
      s.pending = [.step StepInputs.quiet]) ∧
    (let s := poke s0 0x200 [0x12, 0x00]
     s.mode = .running ∧ s.pc.toNat ≤ 4094 ∧ s.pending = [] ∧
      decode [Memory.readByte s.mem s.pc.toNat, Memory.readByte s.mem (s.pc.toNat + 1)] = .ok (.jp 0x200)) := by decide +kernel

theorem hyp_UnknownOpcodeIsReported :
    (readyAt 0x200 0x5123).mode = .running ∧ (readyAt 0x200 0x5123).pc.toNat ≤ 4094 ∧
      (readyAt 0x200 0x5123).pending = [.step StepInputs.quiet] ∧
      ∀ i, decode [Memory.readByte (readyAt 0x200 0x5123).mem 0x200,
        Memory.readByte (readyAt 0x200 0x5123).mem 0x201] ≠ .ok i := by
  refine ⟨by decide +kernel, by decide +kernel, by decide +kernel, fun i h => ?_⟩
  rw [show decode [Memory.readByte (readyAt 0x200 0x5123).mem 0x200, Memory.readByte (readyAt 0x200 0x5123).mem 0x201] =
    .error (.unknownOpcode 0x5123) from by decide +kernel] at h
  cases h

/-- PC from BNNN at its largest, and from 1FFF. -/
theorem hyp_FetchBeyondMemoryIsReported :
    (let s : State := { s0 with pc := 4095, pending := [.step StepInputs.quiet] }
     s.pending = .step StepInputs.quiet :: [] ∧ s.mode = .running ∧ 4094 < s.pc.toNat) ∧
    (let s : State := { s0 with pc := 4350, pending := [.step StepInputs.quiet] }
     s.pending = .step StepInputs.quiet :: [] ∧ s.mode = .running ∧ 4094 < s.pc.toNat) := by decide +kernel

theorem hyp_StepReportsAtMostOneError : (∃ t, step (readyAt 0x200 0x00EE) = .next t) ∧
    waitingForKey.mode = .waiting ∧ (∃ t, step waitingForKey = .next t) ∧
    ∃ t, step { s0 with pending := [.tick] } = .next t :=
  ⟨⟨_, rfl⟩, rfl, ⟨_, rfl⟩, ⟨_, rfl⟩⟩

/-- SP just below and at its largest value. -/
theorem hyp_CallPushesReturnAddress : ({ s0 with sp := 14 } : State).sp.val ≠ 15 ∧ ({ s0 with sp := 15 } : State).sp.val = 15 := by
  decide +kernel

/-- SP at its largest value, at 1 and at 0. -/
theorem hyp_ReturnPopsNewestEntry : ({ s0 with sp := 15 } : State).sp.val ≠ 0 ∧ ({ s0 with sp := 1 } : State).sp.val ≠ 0 ∧
    s0.sp.val = 0 := by decide +kernel

theorem hyp_ReturnAfterCallGoesPastTheCall :
    ({ s0 with sp := 14, pc := 4092 } : State).sp.val < 15 ∧ ({ s0 with sp := 14, pc := 4092 } : State).pc.toNat ≤ 4092 := by
  decide +kernel

/-- The two conditions of the skips and of the flags, on equal operands and on operands one apart: 7 and 8 for the
comparisons and the right shift, 127 and 128 for the left shift, a sum of 255 and of 256 for the carry. -/
theorem hyp_SkipsAndFlags : (let s := holding s0 [(2, 7), (3, 7), (4, 8)]
    (getV s 2).toNat = (getV s 3).toNat ∧ (getV s 2).toNat ≠ (getV s 4).toNat ∧ ¬ (getV s 2).toNat < (getV s 3).toNat ∧
      (getV s 2).toNat < (getV s 4).toNat ∧ (getV s 2).toNat % 2 = 1 ∧ ¬ (getV s 4).toNat % 2 = 1) ∧
    (let s := holding s0 [(0, 127), (1, 128)]
     ¬ 128 ≤ (getV s 0).toNat ∧ 128 ≤ (getV s 1).toNat) ∧
    (let s := holding s0 [(0, 0xFF), (1, 0), (2, 1)]
    ¬ 255 < (getV s 0).toNat + (getV s 1).toNat ∧ 255 < (getV s 0).toNat + (getV s 2).toNat) := by decide +kernel

/-- An addition into VF itself, and a draw that raised nothing. -/
theorem hyp_FlagIsZeroOrOne : writesFlag (.addReg VF 1) = true ∧
    (∃ t, exec (.addReg VF 1) (holding s0 [(15, 0xF0), (1, 0x20)]) = .next t ∧ t.reports = []) ∧
    writesFlag (.drw 0 0 0) = true ∧ ∃ t, exec (.drw 0 0 0) s0 = .next t ∧ t.reports = [] :=
  ⟨rfl, ⟨_, rfl, rfl⟩, rfl, ⟨_, rfl, rfl⟩⟩

/-- A register beside the destination, VF under an instruction that is no flag producer, and V4 under FX65 with X = 3. -/
theorem hyp_RegistersChangeOnlyAsNamed : (∃ t, exec (.addReg 0 1) s0 = .next t) ∧
    namesDestination (.addReg 0 1) 2 = false ∧ (2 : Reg) ≠ VF ∧
    (∃ t, exec (.addImm 0 1) s0 = .next t) ∧ namesDestination (.addImm 0 1) VF = false ∧ writesFlag (.addImm 0 1) = false ∧
    (∃ t, exec (.loadRegs 3) s0 = .next t) ∧ namesDestination (.loadRegs 3) 4 = false ∧ (4 : Reg) ≠ VF :=
  ⟨⟨_, rfl⟩, by decide +kernel, by decide +kernel, ⟨_, rfl⟩, by decide +kernel, by decide +kernel, ⟨_, rfl⟩, by decide +kernel, by decide +kernel⟩

/-- A state whose memory lists cells, with I as given. -/
def pointing (i : Word) : State := poke { s0 with i := i } 0x300 [1, 2, 3]

/-- The last I at which FX33 fits, and the first at which it does not. -/
theorem hyp_DecimalDigitsAreStored : Memory.wf (pointing 0xFFD).mem = true ∧ (pointing 0xFFD).mem ≠ [] ∧
    (pointing 0xFFD).i.toNat + 2 ≤ 4095 ∧ Memory.wf (pointing 0xFFE).mem = true ∧ 4095 < (pointing 0xFFE).i.toNat + 2 := by
  decide +kernel

/-- The same for FX55 and FX65 with X = 0xF; with X = 0 and I beyond memory. -/
theorem hyp_RegistersAreStored : Memory.wf (pointing 0xFF0).mem = true ∧ (pointing 0xFF0).i.toNat + (15 : Reg).val ≤ 4095 ∧
    Memory.wf (pointing 0xFF1).mem = true ∧ 4095 < (pointing 0xFF1).i.toNat + (15 : Reg).val := by decide +kernel

theorem hyp_RegistersAreLoaded : (pointing 0xFFF).i.toNat + (0 : Reg).val ≤ 4095 ∧ (0 : Reg).val < (1 : Reg).val ∧
    4095 < (pointing 0x1000).i.toNat + (0 : Reg).val ∧ 4095 < (pointing 0xFFFF).i.toNat + (15 : Reg).val := by decide +kernel

theorem hyp_LoadAfterStoreGivesRegistersBack :
    let s := poke { s0 with i := 0xFF0 } 0xFFE [0xAA, 0xBB]
    Memory.wf s.mem = true ∧ s.i.toNat + (15 : Reg).val ≤ 4095 ∧ (0 : Reg).val ≤ (3 : Reg).val ∧ (3 : Reg).val < (4 : Reg).val := by
  decide +kernel

/-- FX55 at 0x200 with I = 0x202 stores 6A 42, which the next Step fetches (compare M8). -/
theorem hyp_StoredInstructionIsFetchedNext :
    let s := holding { ready s0 0xF155 with i := 0x202 } [(0, 0x6A), (1, 0x42)]
    Memory.wf s.mem = true ∧ 1 ≤ (1 : Reg).val ∧ s.i.toNat + (1 : Reg).val ≤ 4095 ∧ s.i = nextPc s.pc ∧
      s.mode = .running ∧ s.pending = [.step StepInputs.quiet] ∧
      decode [getV s 0, getV s 1] = .ok (.ldImm 10 0x42) ∧ (nextOf (exec (.storeRegs 1) s)).isSome = true := by decide +kernel

/-- Fifteen rows, the most a sprite has; a position with a collision and one without. -/
theorem hyp_BlitXorsEveryCoveredPixel : (List.replicate 15 (0x80 : Byte)).length ≤ 15 ∧
    Collides (lit [(2, 0)]) (List.replicate 15 0x80) 0 20 ∧ ¬ Collides clearSurface (List.replicate 15 0x80) 0 20 :=
  ⟨by decide +kernel, ⟨2, 0, by decide +kernel, by decide +kernel⟩, fun ⟨r, c, h, _⟩ => by
    rw [show pixel clearSurface r c = false from by simp [pixel, clearSurface, Surface.blank]] at h; cases h⟩

theorem hyp_BlitTwiceRestores : ([0xC3, 0xFF] : List Byte).length ≤ 15 ∧
    pixel clearSurface 0 62 = false ∧ spriteCover [0xC3, 0xFF] 62 31 0 62 = true := by decide +kernel

/-- No rows at any I; the last sprite that fits; the first that does not. -/
theorem hyp_DrawSprite : (0 : Nibble).toNat = 0 ∧ (pointing 0xFFE).i.toNat + (2 : Nibble).toNat - 1 ≤ 4095 ∧
    (pointing 0xFF1).i.toNat + (15 : Nibble).toNat - 1 ≤ 4095 ∧
    (1 ≤ (2 : Nibble).toNat ∧ 4095 < (pointing 0xFFF).i.toNat + (2 : Nibble).toNat - 1) ∧
    (1 ≤ (1 : Nibble).toNat ∧ 4095 < (pointing 0xFFFF).i.toNat + (1 : Nibble).toNat - 1) := by decide +kernel

/-- Key 15 held, and the first byte that names no key. -/
theorem hyp_KeySkips : KeyDown { s0 with inputs := levels 0x8000 } 15 ∧ ¬ KeyDown { s0 with inputs := levels 0xFFFF } 16 := by
  refine ⟨⟨by decide +kernel, by decide +kernel⟩, fun h => absurd h.1 (by decide +kernel)⟩

theorem hyp_WaitForKeyTakesEventOrWaits : ({ s0 with inputs := events [15, 3] } : State).inputs.keysDown = [15, 3] ∧
    s0.inputs.keysDown = [] := by decide +kernel

theorem hyp_WaitingStepPollsTheKeys : waitingForKey.mode = .waiting ∧
    waitingForKey.pending = .step StepInputs.quiet :: [] ∧ StepInputs.quiet.keysDown = [] ∧
    (events [7, 2]).keysDown = 7 :: [2] ∧ (0 : Reg) ≠ waitingForKey.wx := by decide +kernel

theorem hyp_WaitLastsUntilAKeyComes :
    let s := { waitingForKey with pending := [.step (levels 0xFFFF), .tick, .step (events [1])] }
    s.mode = .waiting ∧ [Transition.step (levels 0xFFFF), .tick].all bringsNoKey = true ∧
      s.pending = [.step (levels 0xFFFF), .tick] ++ [.step (events [1])] ∧ bringsNoKey (.step (events [1])) = false := by decide +kernel

theorem hyp_TickDecrementsTimers : ({ s0 with dt := 1, st := 0, pending := [.tick] } : State).pending = .tick :: [] := by decide +kernel

theorem hyp_TicksCountDownToZero : ({ s0 with dt := 255, st := 1, pending := [.tick, .tick, .tick] } : State).pending =
    List.replicate 2 .tick ++ [.tick] := by decide +kernel

/-- A font of one's own with an image of two bytes; the bounds of each region. -/
theorem hyp_PowerOnLoadsFontAndImage : (LaunchImage.mk (List.replicate 80 7) [0x60, 0x0A]).wellFormed = true ∧
    0x4F < 0x50 ∧ (0x50 ≤ 0x1FF ∧ 0x1FF < 0x200) ∧ 0x200 + 3583 ≤ 4095 := by decide +kernel

/-- The invariants hold somewhere a program runs: a call deep, waiting for a key. -/
theorem hyp_StepKeepsInvariants :
    let s := { waitingForKey with sp := 1, stack := s0.stack.set 1 0x202 }
    Inv s ∧ ∃ t, step s = .next t := by
  refine ⟨⟨by decide +kernel, by decide +kernel, ?_, fun _ => by decide +kernel⟩, ⟨_, rfl⟩⟩
  intro k h1 h2
  have hk : k = 1 := Fin.ext (Nat.le_antisymm h2 h1)
  subst hk
  decide +kernel

theorem hyp_ErrorsArePrecise : ∃ t, exec .ret s0 = .next t ∧ t.reports ≠ s0.reports := ⟨_, rfl, by decide +kernel⟩

/-- Each piece of state of the matrix is changed by some instruction. -/
theorem hyp_WriteMatrix : (nextOf (exec (.ldI 5) s0)).map (·.i) ≠ some s0.i ∧
    (nextOf (exec (.call 0x300) s0)).map (·.sp) ≠ some s0.sp ∧
    (nextOf (exec (.call 0x300) s0)).map (·.stack) ≠ some s0.stack ∧
    (nextOf (exec (.ldDtVx 0) (holding s0 [(0, 1)]))).map (·.dt) ≠ some s0.dt ∧
    (nextOf (exec (.ldStVx 0) (holding s0 [(0, 1)]))).map (·.st) ≠ some s0.st ∧
    (nextOf (exec (.ldVxKey 3) s0)).map (·.mode) ≠ some s0.mode ∧
    (nextOf (exec (.storeRegs 0) (holding s0 [(0, 1)]))).map (·.mem) ≠ some s0.mem ∧
    (nextOf (exec .cls { s0 with fb := lit [(0, 0)] })).map (·.fb) ≠ some (lit [(0, 0)]) := by decide +kernel

/-- Both ways to meet the disjunction: an instruction with no PC effect of its own, and a return that raised. -/
theorem hyp_PcAdvancesByDefault : (setsPc .cls = false ∧ ∃ t, exec .cls s0 = .next t) ∧
    (setsPc .ret = true ∧ ∃ t, exec .ret s0 = .next t ∧ t.reports ≠ s0.reports) :=
  ⟨⟨rfl, _, rfl⟩, ⟨rfl, _, rfl, by decide +kernel⟩⟩

theorem hyp_InputsReachOnlyTheirReaders : readsInputs (.drw 0 1 5) = false ∧ ∃ t, exec (.drw 0 1 0) s0 = .next t :=
  ⟨rfl, _, rfl⟩

/-- F15: the word 0x1200 at 0x200. -/
theorem hyp_JumpToSelfIsAFixedPoint : (readyAt 0x200 0x1200).pending = .step StepInputs.quiet :: [] ∧
    (readyAt 0x200 0x1200).mode = .running ∧ (readyAt 0x200 0x1200).pc.toNat = (0x200 : Addr12).toNat ∧
    (readyAt 0x200 0x1200).pc.toNat ≤ 4094 ∧
    decode [Memory.readByte (readyAt 0x200 0x1200).mem 0x200, Memory.readByte (readyAt 0x200 0x1200).mem 0x201] =
      .ok (.jp 0x200) := by decide +kernel

/-- In either mode. -/
theorem hyp_EmptyListLeavesTheTransitionOpen : s0.pending = [] ∧ s0.mode = .running ∧
    ({ waitingForKey with pending := [] } : State).pending = [] ∧ waitingForKey.mode = .waiting := by decide +kernel

/-- The same memory by two routes: a cell written and written back, and one never written. -/
theorem hyp_CanonicalMemoryIsUnique :
    let m := Memory.writeByte (Memory.writeByte (Memory.writeByte [] 0x300 7) 0xFFF 1) 0x300 0
    let m' := Memory.writeByte [] 0xFFF 1
    Memory.wf m = true ∧ Memory.wf m' = true ∧ m ≠ [] ∧ m = m' := by decide +kernel

end Sys2Proof.Tests
end

section
/-! SUPPORT. Jumps and register skips (41_flow.md R111, R114 to R117): what a jump and a skip leave behind, said once for
every instruction that ends in one, and the statements about 1NNN and the four register skips. -/

namespace Sys2Proof.Proofs

open Sys2Proof.Machine

/-! ### The shared ends of the flow instructions -/

/-- `zext_16` keeps the number (R78). -/
@[simp] theorem addrWord_toNat (nnn : Addr12) : (addrWord nnn).toNat = nnn.toNat :=
  BitVec.toNat_setWidth_of_le (by decide)

/-- Whatever a skip instruction tests, it skips exactly when the proposition its test decides holds (R100). -/
theorem skipIf_skipsWhen {condition : Bool} {P : Prop} (s : State) (h : condition = true ↔ P) :
    ∃ t, skipIf condition s = .next t ∧ SkipsWhen P s t := by
  refine ⟨_, rfl, fun hP => ?_, fun hP => ?_, rfl⟩
  · exact if_pos (h.mpr hP)
  · exact if_neg (mt h.mp hP)

/-! ### The unsigned comparisons of bytes (R114 to R117) -/

theorem byte_beq_iff_toNat_eq {a b : Byte} : (a == b) = true ↔ a.toNat = b.toNat :=
  beq_iff_eq.trans BitVec.toNat_inj.symm

theorem byte_bne_iff_toNat_ne {a b : Byte} : (a != b) = true ↔ a.toNat ≠ b.toNat :=
  bne_iff_ne.trans BitVec.toNat_ne_iff_ne.symm

/-! ### What each instruction executes -/

theorem exec_jp (nnn : Addr12) (s : State) : exec (.jp nnn) s = jumpTo (addrWord nnn) s := rfl

theorem exec_seImm (x : Reg) (nn : Byte) (s : State) : exec (.seImm x nn) s = skipIf (getV s x == nn) s := rfl

theorem exec_sneImm (x : Reg) (nn : Byte) (s : State) : exec (.sneImm x nn) s = skipIf (getV s x != nn) s := rfl

theorem exec_seReg (x y : Reg) (s : State) : exec (.seReg x y) s = skipIf (getV s x == getV s y) s := rfl

theorem exec_sneReg (x y : Reg) (s : State) : exec (.sneReg x y) s = skipIf (getV s x != getV s y) s := rfl

/-! ### The statements -/

/-- Settles O12: 1NNN is a jump to `zext_16(NNN)`, whose number is that of NNN. -/
theorem jumpGoesToTarget : Obligations.JumpGoesToTarget := by
  intro nnn s
  rw [exec_jp]
  exact ⟨_, rfl, addrWord_toNat nnn, rfl⟩

/-- Settles O17: each of the four is a `skipIf` on a comparison of two bytes, equal or unequal as they are as numbers. -/
theorem registerSkips : Obligations.RegisterSkips := by
  intro x y nn s
  rw [exec_seImm, exec_sneImm, exec_seReg, exec_sneReg]
  refine ⟨?seImm, ?sneImm, ?seReg, ?sneReg⟩
  case seImm => exact skipIf_skipsWhen s byte_beq_iff_toNat_eq
  case sneImm => exact skipIf_skipsWhen s byte_bne_iff_toNat_ne
  case seReg => exact skipIf_skipsWhen s byte_beq_iff_toNat_eq
  case sneReg => exact skipIf_skipsWhen s byte_bne_iff_toNat_ne

end Sys2Proof.Proofs
end

section
/-! SUPPORT. Register load and immediate add (42_alu.md R125 to R127): what an instruction that ends in one register write
leaves behind, said once for every such instruction, and the statements about 6XNN, 8XY0 and 7XNN. -/

namespace Sys2Proof.Proofs

open Sys2Proof.Machine Sys2Proof.Laws

/-! ### The shared end of the one-register instructions -/

/-- One register write and then the default advance (R99): the destination has the value, every other register its own. -/
theorem writesRegister_advance_setV (x : Reg) (b : Byte) (s : State) : WritesRegister x b s (advance (setV s x b)) := by
  refine ⟨?destination, fun r hr => ?others, advance_pc _, rfl⟩
  case destination => rw [getV_advance, getV_setV_self]
  case others => rw [getV_advance, getV_setV_of_ne s b hr]

/-- An instruction that ends in one register write goes on to a state that differs from `s` by that write and by PC. -/
theorem complete_setV_writesRegister (x : Reg) (b : Byte) (s : State) :
    ∃ t, complete (setV s x b) = .next t ∧ WritesRegister x b s t :=
  ⟨_, rfl, writesRegister_advance_setV x b s⟩

/-! ### What each instruction executes -/

theorem exec_ldImm (x : Reg) (nn : Byte) (s : State) : exec (.ldImm x nn) s = complete (setV s x nn) := rfl

theorem exec_addImm (x : Reg) (nn : Byte) (s : State) : exec (.addImm x nn) s = complete (setV s x (getV s x + nn)) := rfl

theorem exec_ldReg (x y : Reg) (s : State) : exec (.ldReg x y) s = complete (setV s x (getV s y)) := rfl

/-! ### The statements -/

/-- Settles O18: both loads end in the one register write, of NN or of what Vy held before. -/
theorem loadRegister : Obligations.LoadRegister := by
  intro x y nn s
  rw [exec_ldImm, exec_ldReg]
  exact ⟨complete_setV_writesRegister x nn s, complete_setV_writesRegister x (getV s y) s⟩

/-- Settles O19: the one register write is of the sum as a byte, whose number is the sum modulo 256; VF gets no write of
its own. -/
theorem addImmediateWrapsWithoutFlag : Obligations.AddImmediateWrapsWithoutFlag := by
  intro x nn s
  rw [exec_addImm]
  obtain ⟨t, hnext, hsum, hothers, hframe⟩ := complete_setV_writesRegister x (getV s x + nn) s
  refine ⟨t, hnext, ?wraps, rfl, hothers, hframe⟩
  case wraps => rw [hsum, BitVec.toNat_add]

end Sys2Proof.Proofs
end

section
/-! SUPPORT. The address register (43_index_memory.md R145 to R147): what an instruction that ends in one write of I leaves
behind, said once for every such instruction, and the statement about ANNN. -/

namespace Sys2Proof.Proofs

open Sys2Proof.Machine Sys2Proof.Laws

/-! ### The shared end of the instructions that write I -/

/-- An instruction that ends in one write of I goes on to a state that differs from `s` by that write and by PC (R99). -/
theorem complete_writesI (a : Word) (s : State) :
    ∃ t, complete { s with i := a } = .next t ∧ t.i = a ∧ t.pc = nextPc s.pc ∧ t = { s with i := t.i, pc := t.pc } :=
  ⟨_, rfl, advance_i _, advance_pc _, rfl⟩

/-! ### What each instruction executes -/

theorem exec_ldI (nnn : Addr12) (s : State) : exec (.ldI nnn) s = complete { s with i := addrWord nnn } := rfl

/-! ### The statements -/

/-- Settles O27: the one write of I is of `zext_16(NNN)`, whose number is that of NNN. -/
theorem loadAddressRegister : Obligations.LoadAddressRegister := by
  intro nnn s
  rw [exec_ldI]
  obtain ⟨t, hnext, hi, hpc, hframe⟩ := complete_writesI (addrWord nnn) s
  refine ⟨t, hnext, ?address, hpc, hframe⟩
  case address => rw [hi, addrWord_toNat]

end Sys2Proof.Proofs
end

section
/-! SUPPORT. The display (44_display.md R161, R162, R164): one relation says what a blit does to the surface and the
collision; a pixel, a row and a whole sprite stand in it, each built of the one before; and the statements about
`blit_xor` and 00E0. -/

namespace Sys2Proof.Proofs

open Sys2Proof.Machine Sys2Proof.Laws

/-! ### The relation between the surface and collision before and after a blit -/

/-- Going from `before` to `after`, every pixel was XORed with `cover`, and the collision is on exactly if it was on
before or a pixel that was 1 lay under a 1 of `cover`. -/
structure XorsCover (cover : Fin 32 → Fin 64 → Bool) (before after : Surface × Bool) : Prop where
  pixels : ∀ q d, pixel after.1 q d = (pixel before.1 q d ^^ cover q d)
  collision : after.2 = true ↔ before.2 = true ∨ ∃ q d, pixel before.1 q d = true ∧ cover q d = true

/-- A cover without a 1 leaves the surface and the collision. -/
theorem XorsCover.refl {cover : Fin 32 → Fin 64 → Bool} (h : ∀ q d, cover q d = false) (acc : Surface × Bool) :
    XorsCover cover acc acc := by
  refine ⟨fun q d => ?pixels, ?collision⟩
  case pixels => rw [h, Bool.xor_false]
  case collision => simp [h]

/-- Two blits whose covers are disjoint are one blit of both covers: what the second meets is what the first found. -/
theorem XorsCover.trans {first second both : Fin 32 → Fin 64 → Bool} {a b c : Surface × Bool}
    (hab : XorsCover first a b) (hbc : XorsCover second b c)
    (hdisjoint : ∀ q d, second q d = true → first q d = false)
    (hboth : ∀ q d, both q d = (first q d || second q d)) : XorsCover both a c := by
  have hmiddle : ∀ q d, second q d = true → pixel b.1 q d = pixel a.1 q d := fun q d h => by
    rw [hab.pixels, hdisjoint q d h, Bool.xor_false]
  refine ⟨fun q d => ?pixels, ?collision⟩
  case pixels =>
    cases hsecond : second q d with
    | false => rw [hbc.pixels, hab.pixels, hboth, hsecond, Bool.xor_false, Bool.or_false]
    | true => rw [hbc.pixels, hmiddle q d hsecond, hboth, hsecond, Bool.or_true]
  case collision =>
    have hsplit : (∃ q d, pixel a.1 q d = true ∧ both q d = true) ↔
        (∃ q d, pixel a.1 q d = true ∧ first q d = true) ∨ ∃ q d, pixel b.1 q d = true ∧ second q d = true := by
      simp only [hboth, Bool.or_eq_true, and_or_left, exists_or]
      refine or_congr_right (exists_congr fun q => exists_congr fun d => and_congr_left fun h => ?_)
      rw [hmiddle q d h]
    rw [hbc.collision, hab.collision, hsplit, or_assoc]

/-! ### Where a pixel lies in a sprite that wraps -/

/-- The sprite row that falls on row `q` of the surface when the sprite starts at `y`. -/
def rowOffset (y : Nat) (q : Fin 32) : Nat := (q.val + 32 - y % 32) % 32

/-- The sprite column that falls on column `d` of the surface when the sprite starts at `x`. -/
def colOffset (x : Nat) (d : Fin 64) : Nat := (d.val + 64 - x % 64) % 64

theorem eq_wrapRow_iff {y r : Nat} (hr : r < 32) (q : Fin 32) : q = wrapRow (y + r) ↔ rowOffset y q = r := by
  simp only [Fin.ext_iff, wrapRow, Fin.val_ofNat, rowOffset]
  omega

theorem eq_wrapCol_iff {x c : Nat} (hc : c < 64) (d : Fin 64) : d = wrapCol (x + c) ↔ colOffset x d = c := by
  simp only [Fin.ext_iff, wrapCol, Fin.val_ofNat, colOffset]
  omega

/-! ### The covers of a pixel, of a row and of a sprite -/

/-- The cover of column `c` of sprite row `r`. -/
def pixelCover (x y r : Nat) (row : Byte) (c : Nat) (q : Fin 32) (d : Fin 64) : Bool :=
  decide (rowOffset y q = r ∧ colOffset x d = c) && spriteBit row c

/-- The pixel that `blit_xor` writes for column `c` of row `r` (R162) is the one that the offsets name. -/
theorem pixelCover_eq_wrapped {y r c : Nat} (hr : r < 32) (hc : c < 64) (x : Nat) (row : Byte) (q : Fin 32)
    (d : Fin 64) :
    pixelCover x y r row c q d = (decide (q = wrapRow (y + r) ∧ d = wrapCol (x + c)) && spriteBit row c) := by
  simp only [pixelCover, eq_wrapRow_iff hr, eq_wrapCol_iff hc]

/-- The cover of the first `width` columns of sprite row `r`. -/
def rowCover (x y r : Nat) (row : Byte) (width : Nat) (q : Fin 32) (d : Fin 64) : Bool :=
  decide (rowOffset y q = r ∧ colOffset x d < width) && spriteBit row (colOffset x d)

@[simp] theorem rowCover_zero (x y r : Nat) (row : Byte) (q : Fin 32) (d : Fin 64) :
    rowCover x y r row 0 q d = false := by
  simp [rowCover]

theorem rowCover_succ (x y r : Nat) (row : Byte) (width : Nat) (q : Fin 32) (d : Fin 64) :
    rowCover x y r row (width + 1) q d = (rowCover x y r row width q d || pixelCover x y r row width q d) := by
  unfold rowCover pixelCover
  rcases Nat.lt_trichotomy (colOffset x d) width with hlt | heq | hgt
  · simp [hlt, hlt.ne, Nat.lt_succ_of_lt hlt]
  · simp [heq]
  · simp [hgt.ne', Nat.not_lt.mpr hgt.le, Nat.not_lt.mpr (Nat.succ_le_of_lt hgt)]

/-- The columns of a row do not overlap. -/
theorem rowCover_eq_false_of_pixelCover {x y r : Nat} {row : Byte} {width : Nat} {q : Fin 32} {d : Fin 64}
    (h : pixelCover x y r row width q d = true) : rowCover x y r row width q d = false := by
  simp only [pixelCover, Bool.and_eq_true, decide_eq_true_eq] at h
  simp [rowCover, h.1.2]

theorem spriteCover_eq (rows : List Byte) (x y : Byte) (q : Fin 32) (d : Fin 64) :
    spriteCover rows x y q d = (decide (colOffset x.toNat d < 8) &&
      ((rows[rowOffset y.toNat q]?).map (spriteBit · (colOffset x.toNat d))).getD false) := rfl

@[simp] theorem spriteCover_nil (x y : Byte) (q : Fin 32) (d : Fin 64) : spriteCover [] x y q d = false := by
  simp [spriteCover_eq]

/-- A last row adds its own cover to that of the rows above it. -/
theorem spriteCover_concat (rows : List Byte) (row x y : Byte) (q : Fin 32) (d : Fin 64) :
    spriteCover (rows ++ [row]) x y q d =
      (spriteCover rows x y q d || rowCover x.toNat y.toNat rows.length row 8 q d) := by
  simp only [spriteCover_eq, rowCover]
  rcases Nat.lt_trichotomy (rowOffset y.toNat q) rows.length with hlt | heq | hgt
  · simp [List.getElem?_append_left hlt, hlt.ne]
  · simp [heq]
  · simp [List.getElem?_append_right hgt.le, List.getElem?_eq_none hgt.le, hgt.ne', Nat.sub_ne_zero_of_lt hgt]

/-- The rows above a last row do not overlap with it. -/
theorem spriteCover_eq_false_of_rowCover {rows : List Byte} {row x y : Byte} {width : Nat} {q : Fin 32} {d : Fin 64}
    (h : rowCover x.toNat y.toNat rows.length row width q d = true) : spriteCover rows x y q d = false := by
  simp only [rowCover, Bool.and_eq_true, decide_eq_true_eq] at h
  simp [spriteCover_eq, h.1.1]

/-! ### What each loop of `blit_xor` does -/

theorem blitPixel_xorsCover {y r c : Nat} (hr : r < 32) (hc : c < 64) (x : Nat) (row : Byte) (acc : Surface × Bool) :
    XorsCover (pixelCover x y r row c) acc (blitPixel x y r row acc c) := by
  refine ⟨fun q d => ?pixels, ?collision⟩
  case pixels =>
    rw [pixel_blitPixel, pixelCover_eq_wrapped hr hc]
    split
    next h => rw [decide_eq_true h, Bool.true_and]
    next h => rw [decide_eq_false h, Bool.false_and, Bool.xor_false]
  case collision =>
    simp only [blitPixel_collision, pixelCover_eq_wrapped hr hc, Bool.or_eq_true, Bool.and_eq_true, decide_eq_true_eq]
    refine or_congr_right ⟨fun ⟨hold, hbit⟩ => ⟨_, _, hold, ⟨rfl, rfl⟩, hbit⟩, ?_⟩
    rintro ⟨_, _, hold, ⟨rfl, rfl⟩, hbit⟩
    exact ⟨hold, hbit⟩

/-- The inner loop after `width` columns: they stay apart as long as they are no more than the surface is wide. -/
theorem foldl_blitPixel_xorsCover {y r : Nat} (hr : r < 32) (x : Nat) (row : Byte) (acc : Surface × Bool) {width : Nat}
    (hwidth : width ≤ 64) :
    XorsCover (rowCover x y r row width) acc ((List.range width).foldl (blitPixel x y r row) acc) := by
  induction width with
  | zero => exact .refl (rowCover_zero x y r row) acc
  | succ n ih =>
    rw [List.range_succ, List.foldl_append]
    exact (ih (Nat.le_of_succ_le hwidth)).trans (blitPixel_xorsCover hr hwidth x row _)
      (fun _ _ => rowCover_eq_false_of_pixelCover) (rowCover_succ x y r row n)

theorem blitRow_xorsCover {y r : Nat} (hr : r < 32) (x : Nat) (row : Byte) (acc : Surface × Bool) :
    XorsCover (rowCover x y r row 8) acc (blitRow x y r row acc) :=
  foldl_blitPixel_xorsCover hr x row acc (by decide)

/-- The outer loop unrolled at its last row. -/
theorem blitRows_concat (x y r : Nat) (rows : List Byte) (row : Byte) (acc : Surface × Bool) :
    blitRows x y r (rows ++ [row]) acc = blitRow x y (r + rows.length) row (blitRows x y r rows acc) := by
  induction rows generalizing r acc with
  | nil => rfl
  | cons top rows ih =>
    rw [List.cons_append, blitRows_cons, blitRows_cons, ih, List.length_cons, Nat.add_right_comm, Nat.add_assoc]

/-- The rows stay apart as long as they are no more than the surface is high. -/
theorem blitRows_xorsCover (x y : Byte) {rows : List Byte} (hrows : rows.length ≤ 32) (acc : Surface × Bool) :
    XorsCover (spriteCover rows x y) acc (blitRows x.toNat y.toNat 0 rows acc) := by
  induction rows using List.reverseRecOn with
  | nil => exact .refl (spriteCover_nil x y) acc
  | append_singleton rows row ih =>
    rw [List.length_append, List.length_singleton] at hrows
    rw [blitRows_concat, Nat.zero_add]
    exact (ih (Nat.le_of_succ_le hrows)).trans (blitRow_xorsCover hrows x.toNat row _)
      (fun _ _ => spriteCover_eq_false_of_rowCover) (spriteCover_concat rows row x y)

theorem blitXor_xorsCover (fb : Surface) {rows : List Byte} (hrows : rows.length ≤ 32) (x y : Byte) :
    XorsCover (spriteCover rows x y) (fb, false) (blitXor fb rows x y) :=
  blitRows_xorsCover x y hrows (fb, false)

/-! ### The shared end of the instructions that write the display alone -/

/-- An instruction that ends in one write of the surface goes on to a state that differs from `s` by that and by PC. -/
theorem complete_writesSurface (fb : Surface) (s : State) :
    ∃ t, complete { s with fb := fb } = .next t ∧ t.fb = fb ∧ t.pc = nextPc s.pc ∧
      t = { s with fb := t.fb, pc := t.pc } :=
  ⟨_, rfl, advance_fb _, advance_pc _, rfl⟩

theorem exec_cls (s : State) : exec .cls s = complete { s with fb := clearSurface } := rfl

/-! ### The statements -/

/-- Settles O36: a sprite of at most 15 rows is lower than the surface, so its rows never overlap and the loops XOR its
picture onto the surface; the collision starts as false. -/
theorem blitXorsEveryCoveredPixel : Obligations.BlitXorsEveryCoveredPixel := by
  intro fb rows x y hrows
  have hblit := blitXor_xorsCover fb (hrows.trans (by decide)) x y
  refine ⟨hblit.pixels, ?collision⟩
  case collision => simpa [Collides] using hblit.collision

/-- Settles O35: the one write of the display is of the clear surface, all of whose pixels are 0. -/
theorem clearDisplay : Obligations.ClearDisplay := by
  intro s
  rw [exec_cls]
  obtain ⟨t, hnext, hfb, hpc, hframe⟩ := complete_writesSurface clearSurface s
  refine ⟨t, hnext, fun r c => ?cleared, hpc, hframe⟩
  case cleared => rw [hfb, pixel_clearSurface]

end Sys2Proof.Proofs
end

section
/-! SUPPORT. Decoder, encoder and opcode map (30_encoding.md R76 to R82): a word is put together again from the fields
that its format reads, so the encoder inverts the decoder and the rows; and the statements about the three. -/

namespace Sys2Proof.Proofs

open Sys2Proof.Machine Sys2Proof.Laws

/-! ### A word from its class and its fields (R76, R77) -/

theorem formNNN_of_class {op : Word} {c : Nibble} (h : classOf op = c.toNat) : formNNN c (fieldNNN op) = op := by
  rw [classOf_eq] at h
  apply BitVec.eq_of_toNat_eq
  rw [formNNN_toNat, fieldNNN_toNat]
  omega

theorem formXNN_of_class {op : Word} {c : Nibble} (h : classOf op = c.toNat) :
    formXNN c (fieldX op) (fieldNN op) = op := by
  rw [classOf_eq] at h
  apply BitVec.eq_of_toNat_eq
  rw [formXNN_toNat, fieldX_val, fieldNN_toNat]
  omega

theorem formXYN_of_class {op : Word} {c : Nibble} (h : classOf op = c.toNat) :
    formXYN c (fieldX op) (fieldY op) (fieldN op) = op := by
  rw [classOf_eq] at h
  apply BitVec.eq_of_toNat_eq
  rw [formXYN_toNat, fieldX_val, fieldY_val, fieldN_toNat]
  omega

/-- Format X is format XNN with the low byte fixed. -/
theorem formXNN_of_class_low {op : Word} {c : Nibble} {nn : Byte} (h : classOf op = c.toNat)
    (hnn : (fieldNN op).toNat = nn.toNat) : formXNN c (fieldX op) nn = op := by
  rw [← BitVec.eq_of_toNat_eq hnn, formXNN_of_class h]

/-- Format XY is format XYN with the last nibble fixed. -/
theorem formXYN_of_class_low {op : Word} {c n : Nibble} (h : classOf op = c.toNat)
    (hn : (fieldN op).toNat = n.toNat) : formXYN c (fieldX op) (fieldY op) n = op := by
  rw [← BitVec.eq_of_toNat_eq hn, formXYN_of_class h]

theorem classOf_lt (op : Word) : classOf op < 16 := BitVec.isLt _

/-! ### The decoder and the encoder -/

/-- The decoder answers with an instruction exactly when its class procedure does (R98). -/
theorem decodeWord_eq_ok {op : Word} {i : Instr} : decodeWord op = .ok i ↔ decodeForm op = some i := by
  unfold decodeWord
  cases decodeForm op <;> simp

theorem decodeWord_eq_unknown {op : Word} : decodeWord op = .error (.unknownOpcode op) ↔ decodeForm op = none := by
  unfold decodeWord
  cases decodeForm op <;> simp

/-- Decode of encode: the two words of format fixed evaluate, every other word gives its class and its fields back. -/
theorem decodeForm_encode (i : Instr) : decodeForm (encode i) = some i := by
  cases i
  case cls => rfl
  case ret => rfl
  all_goals simp [encode, decodeForm, decodeClass8, decodeClassF]

theorem decodeWord_encode (i : Instr) : decodeWord (encode i) = .ok i := decodeWord_eq_ok.mpr (decodeForm_encode i)

theorem encode_of_decodeClass8 {op : Word} {i : Instr} (hc : classOf op = 8) (h : decodeClass8 op = some i) :
    encode i = op := by
  unfold decodeClass8 at h
  split at h
  case h_10 => cases h
  all_goals
    next hn =>
    cases h
    exact formXYN_of_class_low hc hn

theorem encode_of_decodeClassF {op : Word} {i : Instr} (hc : classOf op = 15) (h : decodeClassF op = some i) :
    encode i = op := by
  unfold decodeClassF at h
  split at h
  case h_10 => cases h
  all_goals
    next hnn =>
    cases h
    exact formXNN_of_class_low hc hnn

/-- Encode of decode: in each class the fields that the decoder read put the word together again. -/
theorem encode_of_decodeForm {op : Word} {i : Instr} (h : decodeForm op = some i) : encode i = op := by
  unfold decodeForm at h
  split at h
  case h_1 =>
    split_ifs at h with hcls hret
    · cases h; exact hcls.symm
    · cases h; exact hret.symm
  case h_2 hc | h_3 hc | h_11 hc | h_12 hc => cases h; exact formNNN_of_class hc
  case h_4 hc | h_5 hc | h_7 hc | h_8 hc | h_13 hc => cases h; exact formXNN_of_class hc
  case h_6 hc | h_10 hc =>
    split_ifs at h with hn
    cases h
    exact formXYN_of_class_low hc (congrArg BitVec.toNat hn)
  case h_9 hc => exact encode_of_decodeClass8 hc h
  case h_14 hc => cases h; exact formXYN_of_class hc
  case h_15 hc =>
    split_ifs at h with hskp hsknp
    · cases h; exact formXNN_of_class_low hc (congrArg BitVec.toNat hskp)
    · cases h; exact formXNN_of_class_low hc (congrArg BitVec.toNat hsknp)
  case h_16 =>
    have hlt := classOf_lt op
    simp only [imp_false] at *
    exact encode_of_decodeClassF (by omega) h

theorem encode_of_decodeWord {op : Word} {i : Instr} (h : decodeWord op = .ok i) : encode i = op :=
  encode_of_decodeForm (decodeWord_eq_ok.mp h)

/-! ### The opcode map (R80) -/

/-- A row whose mask keeps the class nibble, the last nibble or the low byte fixes that field of what it matches. -/
theorem classOf_of_hits {mask bits op : Word} (hmask : mask.extractLsb' 12 4 = 0xF#4)
    (h : OpcodeRow.hits ⟨mask, bits⟩ op = true) :
    classOf op = (bits.extractLsb' 12 4).toNat := by
  have hbits : op &&& mask = bits := beq_iff_eq.mp h
  rw [← hbits, classOf, BitVec.extractLsb'_and, hmask, EncodesItsRow.nibble_and_F]

theorem fieldN_of_hits {mask bits op : Word} (hmask : fieldN mask = 0xF#4) (h : OpcodeRow.hits ⟨mask, bits⟩ op = true) :
    fieldN op = bits.extractLsb' 0 4 := by
  unfold fieldN at hmask
  have hbits : op &&& mask = bits := beq_iff_eq.mp h
  rw [← hbits, fieldN, BitVec.extractLsb'_and, hmask, EncodesItsRow.nibble_and_F]

theorem fieldNN_of_hits {mask bits op : Word} (hmask : fieldNN mask = 0xFF#8)
    (h : OpcodeRow.hits ⟨mask, bits⟩ op = true) :
    fieldNN op = bits.extractLsb' 0 8 := by
  unfold fieldNN at hmask
  have hbits : op &&& mask = bits := beq_iff_eq.mp h
  rw [← hbits, fieldNN, BitVec.extractLsb'_and, hmask, EncodesItsRow.byte_and_FF]

/-- A row whose mask keeps every bit matches one word alone. -/
theorem eq_of_hits_full {bits op : Word} (h : OpcodeRow.hits ⟨0xFFFF, bits⟩ op = true) : op = bits := by
  have hbits : op &&& BitVec.allOnes 16 = bits := beq_iff_eq.mp h
  rwa [BitVec.and_allOnes] at hbits

/-- A word that a row matches decodes. -/
theorem decodeForm_isSome_of_hits (i : Instr) {op : Word} (h : i.row.hits op = true) :
    (decodeForm op).isSome = true := by
  cases i
  case cls | ret => rw [eq_of_hits_full h]; rfl
  case jp | call | ldI | jpV0 | seImm | sneImm | ldImm | addImm | rnd | drw =>
    have hc := classOf_of_hits (by decide) h
    simp [decodeForm, hc]
  case seReg | sneReg | ldReg | orReg | andReg | xorReg | addReg | subReg | shr | subnReg | shl =>
    have hc := classOf_of_hits (by decide) h
    have hn := fieldN_of_hits (by decide) h
    simp [decodeForm, decodeClass8, hc, hn]
  all_goals
    have hc := classOf_of_hits (by decide) h
    have hnn := fieldNN_of_hits (by decide) h
    simp [decodeForm, decodeClassF, hc, hnn]

/-- No word matches two rows: any two rows differ in a bit that both masks keep. -/
theorem opcodeMap_disjoint : ∀ r ∈ opcodeMap, ∀ q ∈ opcodeMap, r ≠ q →
    r.bits &&& (r.mask &&& q.mask) ≠ q.bits &&& (r.mask &&& q.mask) := by
  decide +kernel

theorem opcodeMap_nodup : opcodeMap.Nodup := by decide +kernel

theorem row_eq_of_hits {r q : OpcodeRow} {op : Word} (hr : r ∈ opcodeMap) (hq : q ∈ opcodeMap)
    (hitr : r.hits op = true) (hitq : q.hits op = true) : r = q := by
  by_contra hne
  refine opcodeMap_disjoint r hr q hq hne ?_
  rw [← beq_iff_eq.mp hitr, ← beq_iff_eq.mp hitq]
  ac_rfl

/-- The encoder's word of every instruction matches that instruction's row, which the map holds. -/
theorem encodesItsRow (i : Instr) : EncodesItsRow.Statement i := by
  open EncodesItsRow in
  cases i
  exacts [cls, ret, jp _, call _, seImm _ _, sneImm _ _, seReg _ _, ldImm _ _, addImm _ _, ldReg _ _, orReg _ _,
    andReg _ _, xorReg _ _, addReg _ _, subReg _ _, shr _ _, subnReg _ _, shl _ _, sneReg _ _, ldI _, jpV0 _, rnd _ _,
    drw _ _ _, skp _, sknp _, ldVxDt _, ldVxKey _, ldDtVx _, ldStVx _, addI _, ldFont _, ldBcd _, storeRegs _,
    loadRegs _]

/-- The rows that match an encoded instruction: its own and no other. -/
theorem filter_hits_encode (i : Instr) : opcodeMap.filter (·.hits (encode i)) = [i.row] := by
  obtain ⟨hmem, hits⟩ := encodesItsRow i
  have hsame : ∀ r ∈ opcodeMap, r.hits (encode i) = (r == i.row) := by
    intro r hr
    rw [Bool.eq_iff_iff, beq_iff_eq]
    exact ⟨fun h => row_eq_of_hits hr hmem h hits, fun h => h ▸ hits⟩
  rw [List.filter_congr hsame, List.filter_beq, List.count_eq_one_of_mem opcodeMap_nodup hmem, List.replicate_one]

/-! ### The words that are no instruction (R81) -/

/-- A choice of two instructions is no instruction exactly when both tests fail. -/
theorem choiceOfTwo_eq_none {p q : Prop} [Decidable p] [Decidable q] {i j : Instr} :
    (if p then some i else if q then some j else none) = none ↔ ¬ p ∧ ¬ q := by
  split_ifs with hp hq
  · simp [hp]
  · simp [hq]
  · simp [hp, hq]

theorem decodeClass8_eq_none {op : Word} : decodeClass8 op = none ↔
    op.toNat % 16 ∈ [0x8, 0x9, 0xA, 0xB, 0xC, 0xD, 0xF] := by
  have hlt : op.toNat % 16 < 16 := Nat.mod_lt _ (by decide)
  rw [decodeClass8, fieldN_toNat]
  generalize op.toNat % 16 = n at hlt ⊢
  interval_cases n <;> simp

theorem decodeClassF_eq_none {op : Word} : decodeClassF op = none ↔
    op.toNat % 256 ∉ [0x07, 0x0A, 0x15, 0x18, 0x1E, 0x29, 0x33, 0x55, 0x65] := by
  rw [decodeClassF, fieldNN_toNat]
  split <;> simp_all

/-! ### The statements -/

/-- Settles O1: the words are literals, so the decoder evaluates on them. -/
theorem specWordsDecode : Obligations.SpecWordsDecode :=
  ⟨by decide +kernel, by decide +kernel, by decide +kernel⟩

/-- Settles O2: the fields of an encoded word are the operands it was made of, format by format. -/
theorem decodeOfEncode : Obligations.DecodeOfEncode := by
  intro i
  refine ⟨decodeWord_encode i, ?bytes⟩
  case bytes => rw [← List.append_nil (bytesOfWord _), decode_bytesOfWord, decodeWord_encode]

/-- Settles O3: the class of a word and the fields that its arm of the decoder reads are all of its bits. -/
theorem encodeOfDecode : Obligations.EncodeOfDecode := fun _ _ => encode_of_decodeWord

/-- Settles O4: a word that decodes is the encoder's word, whose own row matches it, and rows are pairwise disjoint; a
word that a row matches has the class and the low field of that row, so it decodes. -/
theorem decoderAgreesWithOpcodeMap : Obligations.DecoderAgreesWithOpcodeMap := by
  intro op
  refine ⟨fun i hi => ?decodes, fun hno => ?unknown⟩
  case decodes => rw [← encode_of_decodeWord hi, filter_hits_encode]
  case unknown =>
    refine List.filter_eq_nil_iff.mpr fun row hrow hits => ?_
    obtain ⟨i, -, rfl⟩ := List.mem_map.mp hrow
    obtain ⟨j, hj⟩ := Option.isSome_iff_exists.mp (decodeForm_isSome_of_hits i hits)
    exact hno j (decodeWord_eq_ok.mpr hj)

/-- Settles O5: class by class, what the tests of the decoder leave over is the family of R81. -/
theorem unknownWordsAreTheSixFamilies : Obligations.UnknownWordsAreTheSixFamilies := by
  intro op
  rw [decodeWord_eq_unknown, decodeForm, ← classOf_eq]
  split
  case h_1 hc => simp [hc, choiceOfTwo_eq_none, ← BitVec.toNat_inj]
  case h_6 hc | h_10 hc => simp [hc, ← BitVec.toNat_inj, fieldN_toNat]
  case h_9 hc => simp [hc, decodeClass8_eq_none]
  case h_15 hc => simp [hc, choiceOfTwo_eq_none, ← BitVec.toNat_inj, fieldNN_toNat]
  case h_16 =>
    have hlt := classOf_lt op
    simp only [imp_false] at *
    have hc : classOf op = 15 := by omega
    simp [hc, decodeClassF_eq_none]
  all_goals
    next hc => simp [hc]

end Sys2Proof.Proofs
end

section
/-! SUPPORT. Arithmetic, logic, shift and random (42_alu.md R128 to R137): what an instruction that ends in a result and
a flag leaves behind, said once for the five that do, and the statements about class 8 and CXNN. -/

namespace Sys2Proof.Proofs

open Sys2Proof.Machine Sys2Proof.Laws

/-! ### The shared ends of the arithmetic instructions -/

/-- An instruction that ends in one register write leaves the bits of what it wrote in the register. -/
theorem complete_setV_bits {bit : Nat → Bool} {b : Byte} (hb : ∀ k, b.getLsbD k = bit k) (x : Reg) (s : State) :
    ∃ t, complete (setV s x b) = .next t ∧ WritesRegister x (getV t x) s t ∧ ∀ k, (getV t x).getLsbD k = bit k := by
  obtain ⟨t, hnext, hvalue, hothers, hframe⟩ := complete_setV_writesRegister x b s
  exact ⟨t, hnext, ⟨rfl, hothers, hframe⟩, by rwa [hvalue]⟩

/-- An instruction that ends in a result and a flag (R104): the result under the number it is, the flag under the
condition it decides. -/
theorem complete_setResultAndFlag_writes {result : Nat} {condition : Prop} {b : Byte} {flag : Bool} (x : Reg)
    (s : State) (hresult : b.toNat = result) (hflag : flag = true ↔ condition) :
    ∃ t, complete (setResultAndFlag s x b flag) = .next t ∧ WritesResultAndFlag x result condition s t := by
  refine ⟨_, rfl, fun hc => ?set, fun hc => ?clear, fun hx => ?result, fun r hx hf => ?others, rfl, rfl⟩
  case set => rw [getV_advance, getV_setResultAndFlag_VF, hflag.mpr hc]; rfl
  case clear => rw [getV_advance, getV_setResultAndFlag_VF, Bool.eq_false_iff.mpr (mt hflag.mp hc)]; rfl
  case result => rw [getV_advance, getV_setResultAndFlag_result s b flag hx, hresult]
  case others => rw [getV_advance, getV_setResultAndFlag_other s b flag hx hf]

/-! ### Results and flags as numbers (R131 to R135) -/

theorem carryOut_eq_true (a b : Byte) : carryOut a b = true ↔ 255 < a.toNat + b.toNat := decide_eq_true_iff

theorem greater_eq_true (a b : Byte) : greater a b = true ↔ b.toNat < a.toNat := decide_eq_true_iff

theorem bitOutRight_eq_true (b : Byte) : bitOutRight b = true ↔ b.toNat % 2 = 1 := by
  rw [bitOutRight, BitVec.getLsbD, Nat.testBit_zero, decide_eq_true_iff]

theorem bitOutLeft_eq_true (b : Byte) : bitOutLeft b = true ↔ 128 ≤ b.toNat := by
  have := b.isLt
  rw [bitOutLeft, BitVec.getLsbD, Nat.testBit_eq_decide_div_mod_eq, decide_eq_true_iff]
  omega

theorem byte_sub_toNat (a b : Byte) : (a - b).toNat = (a.toNat + 256 - b.toNat) % 256 := by
  have := b.isLt
  rw [BitVec.toNat_sub]
  omega

theorem byte_shiftRight_one_toNat (b : Byte) : (b >>> 1).toNat = b.toNat / 2 := by
  rw [BitVec.toNat_ushiftRight, Nat.shiftRight_eq_div_pow, Nat.pow_one]

theorem byte_shiftLeft_one_toNat (b : Byte) : (b <<< 1).toNat = b.toNat * 2 % 256 := by
  rw [BitVec.toNat_shiftLeft, Nat.shiftLeft_eq, Nat.pow_one]

/-! ### What each instruction executes -/

theorem exec_orReg (x y : Reg) (s : State) : exec (.orReg x y) s = complete (setV s x (getV s x ||| getV s y)) := rfl

theorem exec_andReg (x y : Reg) (s : State) : exec (.andReg x y) s = complete (setV s x (getV s x &&& getV s y)) := rfl

theorem exec_xorReg (x y : Reg) (s : State) : exec (.xorReg x y) s = complete (setV s x (getV s x ^^^ getV s y)) := rfl

theorem exec_addReg (x y : Reg) (s : State) : exec (.addReg x y) s =
    complete (setResultAndFlag s x (getV s x + getV s y) (carryOut (getV s x) (getV s y))) := rfl

theorem exec_subReg (x y : Reg) (s : State) : exec (.subReg x y) s =
    complete (setResultAndFlag s x (getV s x - getV s y) (greater (getV s x) (getV s y))) := rfl

theorem exec_shr (x y : Reg) (s : State) : exec (.shr x y) s =
    complete (setResultAndFlag s x (getV s x >>> 1) (bitOutRight (getV s x))) := rfl

theorem exec_subnReg (x y : Reg) (s : State) : exec (.subnReg x y) s =
    complete (setResultAndFlag s x (getV s y - getV s x) (greater (getV s y) (getV s x))) := rfl

theorem exec_shl (x y : Reg) (s : State) : exec (.shl x y) s =
    complete (setResultAndFlag s x (getV s x <<< 1) (bitOutLeft (getV s x))) := rfl

theorem exec_rnd (x : Reg) (nn : Byte) (s : State) :
    exec (.rnd x nn) s = complete (setV s x (s.inputs.rnd &&& nn)) := rfl

/-! ### The statements -/

/-- Settles O20: the one register write is of the bitwise combination, which is taken bit by bit. -/
theorem bitwiseOperations : Obligations.BitwiseOperations := by
  intro x y s
  rw [exec_orReg, exec_andReg, exec_xorReg]
  refine ⟨complete_setV_bits (fun k => ?or) x s, complete_setV_bits (fun k => ?and) x s,
    complete_setV_bits (fun k => ?xor) x s⟩
  case or => exact BitVec.getLsbD_or
  case and => exact BitVec.getLsbD_and
  case xor => rw [BitVec.getLsbD_xor, Bool.bne_eq_xor]

/-- Settles O21: the result is the sum as a byte, the flag decides the carry. -/
theorem addRegistersWithCarry : Obligations.AddRegistersWithCarry := by
  intro x y s
  rw [exec_addReg]
  exact complete_setResultAndFlag_writes x s (BitVec.toNat_add _ _) (carryOut_eq_true _ _)

/-- Settles O22: the result is the difference as a byte, the flag decides the strict comparison; 8XY7 is 8XY5 with the
operands exchanged. -/
theorem subtractWithStrictFlag : Obligations.SubtractWithStrictFlag := by
  intro x y s
  rw [exec_subReg, exec_subnReg]
  exact ⟨complete_setResultAndFlag_writes x s (byte_sub_toNat _ _) (greater_eq_true _ _),
    complete_setResultAndFlag_writes x s (byte_sub_toNat _ _) (greater_eq_true _ _)⟩

/-- Settles O23: the result is half or twice the byte, the flag is its lowest or its highest bit. -/
theorem shiftInPlaceByOne : Obligations.ShiftInPlaceByOne := by
  intro x y s
  rw [exec_shr, exec_shl]
  exact ⟨complete_setResultAndFlag_writes x s (byte_shiftRight_one_toNat _) (bitOutRight_eq_true _),
    complete_setResultAndFlag_writes x s (byte_shiftLeft_one_toNat _) (bitOutLeft_eq_true _)⟩

/-- Settles O26: the one register write is of the random byte AND NN. -/
theorem randomByteIsMasked : Obligations.RandomByteIsMasked := by
  intro x nn s
  rw [exec_rnd]
  exact complete_setV_bits (fun k => BitVec.getLsbD_and) x s

end Sys2Proof.Proofs
end

section
/-! SUPPORT. Calls, returns and the indexed jump (41_flow.md R110, R112, R113, R118): what an error and each of the
three leave behind, and the statements about them. -/

namespace Sys2Proof.Proofs

open Sys2Proof.Machine Sys2Proof.Laws

/-! ### The shared end of the instructions that raise -/

/-- Whatever raises goes on to the state with the record and the default advance, the same elsewhere (R193). -/
theorem raise_raised (record : Report) (s : State) : ∃ t, raise record s = .next t ∧ Raised record s t :=
  ⟨_, rfl, rfl, rfl, rfl⟩

/-! ### What each instruction executes -/

/-- `zext_16` of a byte keeps the number (R78). -/
@[simp] theorem byteWord_toNat (b : Byte) : (byteWord b).toNat = b.toNat :=
  BitVec.toNat_setWidth_of_le (by decide)

theorem exec_jpV0 (nnn : Addr12) (s : State) :
    exec (.jpV0 nnn) s = jumpTo (addrWord nnn + byteWord (getV s V0)) s := rfl

/-- The target of BNNN is the exact sum: 12 bits and 8 bits never fill a word (R113). -/
theorem jpV0_target_toNat (nnn : Addr12) (b : Byte) : (addrWord nnn + byteWord b).toNat = nnn.toNat + b.toNat := by
  have := nnn.isLt
  have := b.isLt
  rw [BitVec.toNat_add, addrWord_toNat, byteWord_toNat]
  omega

theorem exec_call (nnn : Addr12) (s : State) : exec (.call nnn) s = execCall nnn s := rfl

theorem exec_ret (s : State) : exec .ret s = execRet s := rfl

/-- 2NNN below a full stack, all at once (R112). -/
theorem execCall_of_not_full {s : State} (nnn : Addr12) (h : s.sp.val ≠ 15) :
    ∃ t, execCall nnn s = .next t ∧ t.sp.val = s.sp.val + 1 ∧ getStack t t.sp = nextPc s.pc ∧
      (∀ k, k ≠ t.sp → getStack t k = getStack s k) ∧ t.pc = addrWord nnn ∧
      t = { s with stack := t.stack, sp := t.sp, pc := t.pc } := by
  obtain ⟨u, hpush⟩ := exists_pushReturn (nextPc s.pc) h
  obtain ⟨-, hsp, hnew, hold, hframe⟩ := pushReturn_eq_some hpush
  refine ⟨{ u with pc := addrWord nnn }, execCall_of_push nnn hpush, hsp, hnew, hold, rfl, ?_⟩
  rw [hframe]

/-- 00EE above an empty stack, all at once (R110). -/
theorem execRet_of_not_empty {s : State} (h : s.sp.val ≠ 0) :
    ∃ t, execRet s = .next t ∧ t.pc = getStack s s.sp ∧ t.sp.val + 1 = s.sp.val ∧
      t = { s with sp := t.sp, pc := t.pc } := by
  obtain ⟨a, u, hpop⟩ := exists_popReturn h
  obtain ⟨-, ha, hsp, hframe⟩ := popReturn_eq_some hpop
  refine ⟨{ u with pc := a }, execRet_of_pop hpop, ha, hsp, ?_⟩
  rw [hframe]

/-! ### The statements -/

/-- Settles O13: BNNN is a jump to a sum that no word is too short for. -/
theorem jumpWithOffsetIsNotReduced : Obligations.JumpWithOffsetIsNotReduced := by
  intro nnn s
  rw [exec_jpV0]
  exact ⟨_, rfl, jpV0_target_toNat nnn _, rfl⟩

/-- Settles O14: a push that succeeds and then a jump, or the record of a push that is refused. -/
theorem callPushesReturnAddress : Obligations.CallPushesReturnAddress := by
  intro nnn s
  rw [exec_call]
  refine ⟨fun hroom => ?pushes, fun hfull => ?overflow⟩
  case pushes =>
    obtain ⟨t, hnext, hsp, hnew, hold, hpc, hframe⟩ := execCall_of_not_full nnn hroom
    exact ⟨t, hnext, hsp, hnew, hold, by rw [hpc, addrWord_toNat], hframe⟩
  case overflow =>
    rw [execCall_of_full nnn hfull]
    exact raise_raised _ s

/-- Settles O15: a jump to what a pop that succeeds answers, or the record of a pop that is refused. -/
theorem returnPopsNewestEntry : Obligations.ReturnPopsNewestEntry := by
  intro s
  rw [exec_ret]
  refine ⟨execRet_of_not_empty, fun hempty => ?underflow⟩
  case underflow =>
    rw [execRet_of_empty hempty]
    exact raise_raised _ s

/-- Settles O16: the return pops the entry that the call pushed, and below 4093 the advance does not wrap. -/
theorem returnAfterCallGoesPastTheCall : Obligations.ReturnAfterCallGoesPastTheCall := by
  intro nnn s hroom hpc
  obtain ⟨t, hcall, htsp, hnew, -, -, htframe⟩ := execCall_of_not_full nnn (s := s) (by omega)
  obtain ⟨u, hret, hupc, husp, huframe⟩ := execRet_of_not_empty (s := t) (by omega)
  refine ⟨t, u, hcall, hret, ?pc, Fin.ext ?sp, ?frame⟩
  case pc =>
    rw [hupc, hnew, nextPc_toNat]
    omega
  case sp => omega
  case frame =>
    have hsp : u.sp = s.sp := Fin.ext (by omega)
    rw [huframe, htframe, ← hsp]

end Sys2Proof.Proofs
end

section
/-! SUPPORT. The address register and memory (43_index_memory.md R146 to R152): what a store and a load at I leave
behind, said once for both stores, and the statements about the instructions of that chapter. -/

namespace Sys2Proof.Proofs

open Sys2Proof.Machine Sys2Proof.Laws

/-! ### The shared end of the stores -/

/-- A store that fits, on a canonical memory: each byte at its address and no other byte, nothing else but PC (R55,
R99). -/
theorem complete_storesAtI {s : State} {bytes : List Byte} (hwf : Memory.wf s.mem = true)
    (hin : s.i.toNat + bytes.length ≤ 4096) :
    ∃ t, complete { s with mem := Memory.writeRange s.mem s.i.toNat bytes } = .next t ∧
      (∀ k b, bytes[k]? = some b → Memory.readByte t.mem (s.i.toNat + k) = b) ∧
      SameMemoryOutside s.i.toNat bytes.length s t ∧ t.pc = nextPc s.pc ∧ t = { s with mem := t.mem, pc := t.pc } := by
  refine ⟨_, rfl, fun k b hk => ?stored, fun a ha => ?kept, rfl, rfl⟩
  case stored =>
    rw [advance_mem, readByte_writeRange hwf hin, if_pos (Nat.le_add_right _ _), Nat.add_sub_cancel_left, hk,
      Option.getD_some]
  case kept =>
    rw [advance_mem, readByte_writeRange hwf hin]
    split
    next hle => rw [List.getElem?_eq_none (by omega), Option.getD_none]
    next => rfl

/-! ### What each instruction executes -/

theorem exec_addI (x : Reg) (s : State) :
    exec (.addI x) s = complete { s with i := s.i + byteWord (getV s x) } := rfl

theorem exec_ldFont (x : Reg) (s : State) :
    exec (.ldFont x) s = complete { s with i := glyphAddress (getV s x) } := rfl

theorem exec_ldBcd (x : Reg) (s : State) : exec (.ldBcd x) s = execLdBcd x s := rfl

theorem exec_storeRegs (x : Reg) (s : State) : exec (.storeRegs x) s = execStoreRegs x s := rfl

theorem exec_loadRegs (x : Reg) (s : State) : exec (.loadRegs x) s = execLoadRegs x s := rfl

/-- The full byte times 5 fits a word (R147). -/
theorem glyphAddress_toNat (b : Byte) : (glyphAddress b).toNat = b.toNat * 5 := by
  have := b.isLt
  rw [glyphAddress, BitVec.toNat_ofNat, Config.glyphLen]
  omega

/-- A number below 256 that is stored as a byte is read back as itself (R148). -/
theorem digitByte_toNat {b : Byte} {n : Nat} (h : b = BitVec.ofNat 8 n) (hn : n < 256) : b.toNat = n := by
  rw [h, BitVec.toNat_ofNat, Nat.mod_eq_of_lt hn]

/-- FX55 that fits, all at once (R149). -/
theorem execStoreRegs_of_room {s : State} {x : Reg} (hwf : Memory.wf s.mem = true) (hin : s.i.toNat + x.val ≤ 4095) :
    ∃ t, execStoreRegs x s = .next t ∧
      (∀ k : Reg, k.val ≤ x.val → Memory.readByte t.mem (s.i.toNat + k.val) = getV s k) ∧
      SameMemoryOutside s.i.toNat (x.val + 1) s t ∧ t.pc = nextPc s.pc ∧ t = { s with mem := t.mem, pc := t.pc } := by
  rw [execStoreRegs_of_fits x (by omega)]
  obtain ⟨t, hnext, hstored, hkept, hpc, hframe⟩ :=
    complete_storesAtI (bytes := registersUpTo s x) hwf (by rw [registersUpTo_length]; omega)
  rw [registersUpTo_length] at hkept
  exact ⟨t, hnext, fun k hk => hstored k _ (registersUpTo_getElem s x k hk), hkept, hpc, hframe⟩

/-- FX65 that fits, all at once (R150). -/
theorem execLoadRegs_of_room {s : State} {x : Reg} (hin : s.i.toNat + x.val ≤ 4095) :
    ∃ t, execLoadRegs x s = .next t ∧
      (∀ k : Reg, k.val ≤ x.val → getV t k = Memory.readByte s.mem (s.i.toNat + k.val)) ∧
      (∀ k : Reg, x.val < k.val → getV t k = getV s k) ∧ OnlyRegisters s t := by
  rw [execLoadRegs_of_fits x (by omega)]
  refine ⟨_, rfl, fun k hk => ?loaded, fun k hk => ?kept, ?pc, ?frame⟩
  case loaded =>
    rw [getV_advance, getV_loadFrom, if_pos (Nat.zero_le _), Nat.sub_zero,
      readRange_getElem _ _ _ _ (Nat.lt_succ_of_le hk), Option.getD_some]
  case kept =>
    rw [getV_advance, getV_loadFrom, if_pos (Nat.zero_le _), List.getElem?_eq_none, Option.getD_none]
    rw [readRange_length]
    omega
  case pc => rw [advance_pc, loadFrom_pc]
  case frame =>
    rw [advance, loadFrom_frame]

/-! ### The statements -/

/-- Settles O28: the one write of I is of a sum of words, which is taken modulo 65536. -/
theorem addToAddressRegisterWrapsAt65536 : Obligations.AddToAddressRegisterWrapsAt65536 := by
  intro x s
  rw [exec_addI]
  obtain ⟨t, hnext, hi, hpc, hframe⟩ := complete_writesI (s.i + byteWord (getV s x)) s
  exact ⟨t, hnext, by rw [hi, BitVec.toNat_add, byteWord_toNat], hpc, hframe⟩

/-- Settles O29: the one write of I is of five times the byte, at most 1275. -/
theorem glyphAddressIsFiveTimesVx : Obligations.GlyphAddressIsFiveTimesVx := by
  intro x s
  rw [exec_ldFont]
  obtain ⟨t, hnext, hi, hpc, hframe⟩ := complete_writesI (glyphAddress (getV s x)) s
  exact ⟨t, hnext, by rw [hi, glyphAddress_toNat], hpc, hframe⟩

/-- Settles O30: a store of the three digits when they fit, else the record of the store that is refused. -/
theorem decimalDigitsAreStored : Obligations.DecimalDigitsAreStored := by
  intro x s hwf
  have hbyte := (getV s x).isLt
  rw [exec_ldBcd]
  refine ⟨fun hin => ?stores, fun hout => ?refused⟩
  case stores =>
    rw [execLdBcd_of_fits x (by omega)]
    obtain ⟨t, hnext, hstored, hkept, hpc, hframe⟩ :=
      complete_storesAtI (bytes := decimalDigits (getV s x)) hwf (Nat.succ_le_succ hin)
    refine ⟨t, hnext, ?hundreds, ?tens, ?units, hkept, hpc, hframe⟩
    case hundreds => exact digitByte_toNat (hstored 0 _ rfl) (by omega)
    case tens => exact digitByte_toNat (hstored 1 _ rfl) (by omega)
    case units => exact digitByte_toNat (hstored 2 _ rfl) (by omega)
  case refused =>
    rw [execLdBcd_of_outside x (by omega)]
    exact raise_raised _ s

/-- Settles O31: a store of V0 to Vx when they fit, else the record of the store that is refused. -/
theorem registersAreStored : Obligations.RegistersAreStored := by
  intro x s hwf
  rw [exec_storeRegs]
  refine ⟨execStoreRegs_of_room hwf, fun hout => ?refused⟩
  case refused =>
    rw [execStoreRegs_of_outside x (by omega)]
    exact raise_raised _ s

/-- Settles O32: a load of V0 to Vx when they fit, else the record of the load that is refused. -/
theorem registersAreLoaded : Obligations.RegistersAreLoaded := by
  intro x s
  rw [exec_loadRegs]
  refine ⟨execLoadRegs_of_room, fun hout => ?refused⟩
  case refused =>
    rw [execLoadRegs_of_outside x (by omega)]
    exact raise_raised _ s

/-- Settles O33: the store leaves I alone, so the load reads the very bytes that were stored. -/
theorem loadAfterStoreGivesRegistersBack : Obligations.LoadAfterStoreGivesRegistersBack := by
  intro x s between hwf hin
  obtain ⟨t, hstore, hstored, -, -, hframe⟩ := execStoreRegs_of_room hwf hin
  have hi : t.i = s.i := by rw [hframe]
  obtain ⟨u, hload, hloaded, habove, -⟩ :=
    execLoadRegs_of_room (s := { t with v := between }) (x := x) (by simpa only [hi] using hin)
  refine ⟨t, u, hstore, hload, fun k hk => ?given, habove⟩
  case given =>
    rw [hloaded k hk]
    simp only [hi]
    exact hstored k hk

end Sys2Proof.Proofs
end

section
/-! SUPPORT. Main memory as data (20_memory.md R51; 70_reset_and_hazards.md R220, R221): the canonical form of a memory
is unique, and what memory holds after power-on. -/

namespace Sys2Proof.Proofs

open Sys2Proof.Machine Sys2Proof.Laws

/-! ### The canonical form -/

/-- What a listed cell of a canonical memory says: where it lies, that it reads as something else than unlisted, and
that the rest lists higher addresses only. -/
theorem wfFrom_cons {lo k : Nat} {b : Byte} {rest : Memory} :
    Memory.wfFrom lo ((k, b) :: rest) = true ↔
      lo ≤ k ∧ k < 4096 ∧ b ≠ unlistedByte k ∧ Memory.wfFrom (k + 1) rest = true := by
  simp only [Memory.wfFrom, Config.memSize, Bool.and_eq_true, decide_eq_true_eq, and_assoc]

theorem readByte_head (k : Nat) (b : Byte) (rest : Memory) : Memory.readByte ((k, b) :: rest) k = b := if_pos rfl

/-- A canonical memory that starts above an address differs there from one that lists it. -/
theorem not_listed_below {lo k : Nat} {b : Byte} {rest m : Memory} (hb : b ≠ unlistedByte k)
    (hm : Memory.wfFrom lo m = true) (hlo : k < lo) :
    ¬ ∀ a, Memory.readByte ((k, b) :: rest) a = Memory.readByte m a := by
  intro h
  have hk := h k
  rw [readByte_head, readByte_below hm hlo] at hk
  exact hb hk

/-- Two canonical memories that read the same are the same list: their first cells lie at the same address, as the lower
of the two would read as unlisted in the other; then those cells are equal, and the rests read the same. -/
theorem wfFrom_unique {m m' : Memory} {lo : Nat} (hm : Memory.wfFrom lo m = true) (hm' : Memory.wfFrom lo m' = true)
    (h : ∀ a, Memory.readByte m a = Memory.readByte m' a) : m = m' := by
  induction m generalizing m' lo with
  | nil =>
    match m' with
    | [] => rfl
    | (k', b') :: rest' =>
      obtain ⟨-, -, hb', -⟩ := wfFrom_cons.mp hm'
      have hk := h k'
      rw [readByte_head, readByte_nil] at hk
      exact absurd hk.symm hb'
  | cons cell rest ih =>
    obtain ⟨k, b⟩ := cell
    obtain ⟨-, -, hb, hrest⟩ := wfFrom_cons.mp hm
    match m' with
    | [] =>
      have hk := h k
      rw [readByte_head, readByte_nil] at hk
      exact absurd hk hb
    | (k', b') :: rest' =>
      obtain ⟨-, hlt', hb', hrest'⟩ := wfFrom_cons.mp hm'
      obtain ⟨-, hlt, -, -⟩ := wfFrom_cons.mp hm
      rcases Nat.lt_trichotomy k k' with hlow | rfl | hhigh
      · exact absurd h (not_listed_below hb (wfFrom_cons.mpr ⟨Nat.le_refl k', hlt', hb', hrest'⟩) hlow)
      · have hcell : b = b' := by simpa only [readByte_head] using h k
        rw [hcell, ih hrest hrest' fun a => ?rests]
        case rests =>
          rcases Nat.lt_or_ge k a with ha | ha
          · simpa only [readByte_cons, if_neg (Nat.ne_of_gt ha)] using h a
          · rw [readByte_below hrest (Nat.lt_succ_of_le ha), readByte_below hrest' (Nat.lt_succ_of_le ha)]
      · exact absurd (fun a => (h a).symm)
          (not_listed_below hb' (wfFrom_cons.mpr ⟨Nat.le_refl k, hlt, hb, hrest⟩) hhigh)

/-! ### Power-on -/

theorem wellFormed_iff {image : LaunchImage} :
    image.wellFormed = true ↔ image.font.length = 80 ∧ image.rom.length ≤ 3584 := by
  simp only [LaunchImage.wellFormed, LaunchImage.fontFits, LaunchImage.romFits, Config.fontLen, Config.romMax,
    Bool.and_eq_true, beq_iff_eq, decide_eq_true_eq]

/-- Outside the font region an unlisted byte is 0x00 (R34). -/
theorem unlistedByte_above_font {a : Nat} (h : 0x50 ≤ a) : unlistedByte a = 0 := by
  rw [unlistedByte, List.getD_eq_getElem?_getD, List.getElem?_eq_none h]; rfl

/-- What memory reads as after power-on, at every address (R221). -/
theorem readByte_powerOn {image : LaunchImage} (h : image.wellFormed = true) (a : Nat) :
    Memory.readByte (State.powerOn image).mem a =
      if 0x200 ≤ a then (image.rom[a - 0x200]?).getD ((image.font[a]?).getD (unlistedByte a))
      else (image.font[a]?).getD (unlistedByte a) := by
  obtain ⟨hfont, hrom⟩ := wellFormed_iff.mp h
  have hfontIn : 0 + image.font.length ≤ 4096 := by omega
  have hromIn : 0x200 + image.rom.length ≤ 4096 := by omega
  have hwf : Memory.wf (Memory.writeRange [] 0 image.font) = true := writeRange_wf rfl hfontIn
  rw [show (State.powerOn image).mem = Memory.writeRange (Memory.writeRange [] 0 image.font) 0x200 image.rom from rfl,
    readByte_writeRange hwf hromIn, readByte_writeRange rfl hfontIn, if_pos (Nat.zero_le a), Nat.sub_zero, readByte_nil]

/-! ### The statements -/

/-- Settles O56: the canonical form from address 0 up is unique. -/
theorem canonicalMemoryIsUnique : Obligations.CanonicalMemoryIsUnique := fun _ _ => wfFrom_unique

/-- Settles O47: each of the four regions is one case of what memory reads as after power-on. -/
theorem powerOnLoadsFontAndImage : Obligations.PowerOnLoadsFontAndImage := by
  intro image h
  obtain ⟨hfont, hrom⟩ := wellFormed_iff.mp h
  refine ⟨fun a ha => ?font, fun a hlow hhigh => ?between, fun k hk => ?image, rfl⟩
  case font =>
    rw [readByte_powerOn h, if_neg (by omega), List.getElem?_eq_getElem (by omega), Option.getD_some]
  case between =>
    rw [readByte_powerOn h, if_neg (by omega), List.getElem?_eq_none (by omega), Option.getD_none,
      unlistedByte_above_font hlow]
  case image =>
    rw [readByte_powerOn h, if_pos (Nat.le_add_right _ _), Nat.add_sub_cancel_left,
      List.getElem?_eq_none (l := image.font) (by omega), Option.getD_none, unlistedByte_above_font (by omega)]

end Sys2Proof.Proofs
end

section
/-! SUPPORT. Sprites (44_display.md R163, R165): what two identical blits do, what DXYN leaves behind, and the
statements about the two. -/

namespace Sys2Proof.Proofs

open Sys2Proof.Machine Sys2Proof.Laws

/-! ### What each instruction executes -/

theorem exec_drw (x y : Reg) (n : Nibble) (s : State) : exec (.drw x y n) s = execDrw x y n s := rfl

/-- DXYN whose bytes lie in memory, all at once: the blit of the bytes at I, then its collision to VF (R165). -/
theorem execDrw_of_room {s : State} (x y : Reg) {n : Nibble} (h : n.toNat = 0 ∨ s.i.toNat + n.toNat ≤ 4096) :
    ∃ t, execDrw x y n s = .next t ∧
      t.fb = (blitXor s.fb (Memory.readRange s.mem s.i.toNat n.toNat) (getV s x) (getV s y)).1 ∧
      getV t VF = flagByte (blitXor s.fb (Memory.readRange s.mem s.i.toNat n.toNat) (getV s x) (getV s y)).2 ∧
      (∀ r, r ≠ VF → getV t r = getV s r) ∧ t.pc = nextPc s.pc ∧ t = { s with v := t.v, fb := t.fb, pc := t.pc } := by
  rw [execDrw_of_fits x y h]
  refine ⟨_, rfl, rfl, getV_setFlag_VF _ _, fun r hr => ?others, rfl, rfl⟩
  case others => exact getV_setFlag_of_ne _ _ hr

/-! ### The statements -/

/-- Settles O37: a pixel is XORed with the same bit twice; under a 1 bit the second blit finds the opposite of what the
first found; and on a clear surface there is no 1 pixel to collide with. -/
theorem blitTwiceRestores : Obligations.BlitTwiceRestores := by
  intro fb rows x y hrows
  have hfirst := blitXor_xorsCover fb (hrows.trans (by decide)) x y
  have hsecond := blitXor_xorsCover (blitXor fb rows x y).1 (hrows.trans (by decide)) x y
  have hclear := blitXor_xorsCover clearSurface (hrows.trans (by decide)) x y
  refine ⟨surface_ext fun q d => ?restored, ?collides, ?clear⟩
  case restored => rw [hsecond.pixels, hfirst.pixels, Bool.xor_assoc, Bool.xor_self, Bool.xor_false]
  case collides =>
    have hopposite (q d) : pixel (blitXor fb rows x y).1 q d = true ∧ spriteCover rows x y q d = true ↔
        pixel fb q d = false ∧ spriteCover rows x y q d = true :=
      and_congr_left fun hcover => by rw [hfirst.pixels, hcover, Bool.xor_true, Bool.not_eq_true']
    rw [hsecond.collision]
    simp only [hopposite, Bool.false_eq_true, false_or]
  case clear =>
    rw [Bool.eq_false_iff, Ne, hclear.collision]
    simp

/-- Settles O38: DXYN blits the bytes at I and the blit XORs their picture, the collision in VF, or is refused. -/
theorem drawSprite : Obligations.DrawSprite := by
  intro x y n s
  rw [exec_drw]
  refine ⟨fun hin => ?draws, fun hout => ?refused⟩
  case draws =>
    obtain ⟨t, hnext, hfb, hflag, hothers, hpc, hframe⟩ := execDrw_of_room (s := s) x y (n := n) (by omega)
    have hrows : (Memory.readRange s.mem s.i.toNat n.toNat).length ≤ 15 := by
      rw [readRange_length]
      exact Nat.le_of_lt_succ n.isLt
    obtain ⟨hpixels, hcollision⟩ := blitXorsEveryCoveredPixel s.fb _ (getV s x) (getV s y) hrows
    refine ⟨t, _, hnext, readRange_length _ _ _, readRange_getElem _ _ _, fun r c => ?pixels, fun hc => ?set,
      fun hc => ?cleared, hothers, hpc, hframe⟩
    case pixels => rw [hfb, hpixels]
    case set => rw [hflag, hcollision.mpr hc]; rfl
    case cleared => rw [hflag, Bool.eq_false_iff.mpr (mt hcollision.mp hc)]; rfl
  case refused =>
    rw [execDrw_of_outside x y (by omega)]
    exact raise_raised _ s

end Sys2Proof.Proofs
end

section
/-! SUPPORT. Keys and timers (45_keys_timers.md R175 to R181): what the key skips, the key wait and the timer moves
leave behind, and the statements about them. -/

namespace Sys2Proof.Proofs

open Sys2Proof.Machine Sys2Proof.Laws

/-! ### What each instruction executes -/

theorem exec_skp (x : Reg) (s : State) : exec (.skp x) s = skipIf (keyHeld s (getV s x)) s := rfl

theorem exec_sknp (x : Reg) (s : State) : exec (.sknp x) s = skipIf (!keyHeld s (getV s x)) s := rfl

theorem exec_ldVxDt (x : Reg) (s : State) : exec (.ldVxDt x) s = complete (setV s x s.dt) := rfl

theorem exec_ldVxKey (x : Reg) (s : State) : exec (.ldVxKey x) s = execLdVxKey x s := rfl

theorem exec_ldDtVx (x : Reg) (s : State) : exec (.ldDtVx x) s = complete { s with dt := getV s x } := rfl

theorem exec_ldStVx (x : Reg) (s : State) : exec (.ldStVx x) s = complete { s with st := getV s x } := rfl

/-- The test of the key skips decides whether the key exists and is held (R181). -/
theorem keyHeld_iff (s : State) (k : Byte) : keyHeld s k = true ↔ KeyDown s k := by
  rw [keyHeld, Bool.and_eq_true, decide_eq_true_iff, KeyDown]

/-! ### The statements -/

/-- Settles O39: both are a `skipIf` on the level of the key, one of them negated. -/
theorem keySkips : Obligations.KeySkips := by
  intro x s
  rw [exec_skp, exec_sknp]
  refine ⟨skipIf_skipsWhen s (keyHeld_iff s _), skipIf_skipsWhen s ?notHeld⟩
  case notHeld => rw [Bool.not_eq_true', ← Bool.not_eq_true, keyHeld_iff]

/-- Settles O40: with an event the instruction ends in one register write, of the oldest; without one it sets WX and
MODE alone. -/
theorem waitForKeyTakesEventOrWaits : Obligations.WaitForKeyTakesEventOrWaits := by
  intro x s
  rw [exec_ldVxKey]
  refine ⟨fun k ks hevent => ?takes, fun hnone => ?waits⟩
  case takes =>
    rw [execLdVxKey_of_event x hevent]
    obtain ⟨t, hnext, hvalue, hothers, hframe⟩ := complete_setV_writesRegister x (keyByte k) s
    exact ⟨t, hnext, by rw [hvalue, keyByte_toNat], rfl, hothers, hframe⟩
  case waits =>
    rw [execLdVxKey_of_none x hnone]
    exact ⟨_, rfl, rfl, rfl, rfl⟩

/-- Settles O43: one register write of DT, one write of DT, one write of ST. -/
theorem timerMoves : Obligations.TimerMoves := by
  intro x s
  rw [exec_ldVxDt, exec_ldDtVx, exec_ldStVx]
  exact ⟨complete_setV_writesRegister x s.dt s, ⟨_, rfl, rfl, rfl, rfl⟩, ⟨_, rfl, rfl, rfl, rfl⟩⟩

end Sys2Proof.Proofs
end

section
/-! SUPPORT. What executing any instruction does, said once (00_scope.md R10; 10_state.md R35; 60_exceptions.md R192,
R193): it raises its one error, or it has one of eleven effects; and the statements about all instructions. -/

namespace Sys2Proof.Proofs

open Sys2Proof.Machine Sys2Proof.Laws

/-! ### The effects -/

/-- What an instruction that raises no error makes of the state, by the pieces of state it may write (R35). -/
inductive Effect (s : State) : Instr → State → Prop
  /-- Registers alone: those the instruction names, and VF as a flag. -/
  | registers {i : Instr} (v : Vector Byte 16)
      (hnamed : ∀ r : Reg, namesDestination i r = false → (r = VF → writesFlag i = false) → v[r.val] = getV s r)
      (hflag : writesFlag i = true → v[VF.val] = 0 ∨ v[VF.val] = 1) :
      Effect s i { s with v := v, pc := nextPc s.pc }
  /-- 00E0. -/
  | cleared (fb : Surface) : Effect s .cls { s with fb := fb, pc := nextPc s.pc }
  /-- DXYN: the display, and VF as a flag. -/
  | drawn {x y : Reg} {n : Nibble} (v : Vector Byte 16) (fb : Surface)
      (hothers : ∀ r : Reg, r ≠ VF → v[r.val] = getV s r) (hflag : v[VF.val] = 0 ∨ v[VF.val] = 1) :
      Effect s (.drw x y n) { s with v := v, fb := fb, pc := nextPc s.pc }
  /-- The three instructions that write I. -/
  | pointed {i : Instr} (hi : (∃ n, i = .ldI n) ∨ (∃ x, i = .addI x) ∨ ∃ x, i = .ldFont x) (a : Word) :
      Effect s i { s with i := a, pc := nextPc s.pc }
  /-- The two stores: memory keeps its canonical form. -/
  | stored {i : Instr} (hi : (∃ x, i = .ldBcd x) ∨ ∃ x, i = .storeRegs x) (m : Memory)
      (hwf : Memory.wf s.mem = true → Memory.wf m = true) : Effect s i { s with mem := m, pc := nextPc s.pc }
  /-- FX15. -/
  | delay {x : Reg} (b : Byte) : Effect s (.ldDtVx x) { s with dt := b, pc := nextPc s.pc }
  /-- FX18. -/
  | sound {x : Reg} (b : Byte) : Effect s (.ldStVx x) { s with st := b, pc := nextPc s.pc }
  /-- Jumps and skips. -/
  | jumped {i : Instr} (hi : setsPc i = true) (target : Word) (hrange : target.toNat ≤ 4350) :
      Effect s i { s with pc := target }
  /-- 2NNN with room on the stack. -/
  | called {nnn : Addr12} (stack : Vector Word 16) (sp : Fin 16) (hsp : sp.val = s.sp.val + 1)
      (hnew : stack[sp.val] = nextPc s.pc) (hold : ∀ k : Fin 16, k ≠ sp → stack[k.val] = getStack s k) :
      Effect s (.call nnn) { s with stack := stack, sp := sp, pc := addrWord nnn }
  /-- 00EE with an entry on the stack. -/
  | returned (sp : Fin 16) (hsp : sp.val + 1 = s.sp.val) : Effect s .ret { s with sp := sp, pc := getStack s s.sp }
  /-- FX0A without an event. -/
  | waits {x : Reg} : Effect s (.ldVxKey x) { s with wx := x, mode := .waiting }

/-- `t` is what instruction `i` makes of `s`: the record of its error if its condition holds (R192), else its effect. -/
inductive Executed (i : Instr) (s t : State) : Prop
  | error (record : Report) (herror : errorOf i s = some record) (hraised : Raised record s t)
  | done (hnone : errorOf i s = none) (heffect : Effect s i t)

/-- The machine goes on from `s` by instruction `i`, in one of the ways of `Executed`. -/
def Executes (i : Instr) (s : State) : Prop := ∃ t, exec i s = .next t ∧ Executed i s t

/-! ### From the shapes of single instructions to an effect -/

theorem Executes.of_writesRegister {i : Instr} {s : State} {x : Reg} {b : Byte}
    (h : ∃ t, exec i s = .next t ∧ WritesRegister x b s t) (hnone : errorOf i s = none)
    (hdest : namesDestination i x = true) (hnoflag : writesFlag i = false) : Executes i s := by
  obtain ⟨t, hnext, -, hothers, hpc, hframe⟩ := h
  refine ⟨t, hnext, .done hnone ?_⟩
  rw [hframe, hpc]
  refine .registers t.v (fun r hr _ => hothers r ?_) (fun hflag => ?_)
  · rintro rfl
    exact Bool.noConfusion (hdest.symm.trans hr)
  · exact Bool.noConfusion (hnoflag.symm.trans hflag)

theorem Executes.of_writesResultAndFlag {i : Instr} {s : State} {x : Reg} {result : Nat} {condition : Prop}
    (h : ∃ t, exec i s = .next t ∧ WritesResultAndFlag x result condition s t) (hnone : errorOf i s = none)
    (hdest : namesDestination i x = true) (hflag : writesFlag i = true) : Executes i s := by
  obtain ⟨t, hnext, hset, hclear, -, hothers, hpc, hframe⟩ := h
  refine ⟨t, hnext, .done hnone ?_⟩
  rw [hframe, hpc]
  refine .registers t.v (fun r hr hvf => hothers r ?_ fun h => ?_) (fun _ => ?_)
  · rintro rfl
    exact Bool.noConfusion (hdest.symm.trans hr)
  · exact Bool.noConfusion (hflag.symm.trans (hvf h))
  · exact (em condition).symm.imp hclear hset

theorem Executes.of_skipsWhen {i : Instr} {s : State} {P : Prop} (h : ∃ t, exec i s = .next t ∧ SkipsWhen P s t)
    (hnone : errorOf i s = none) (hi : setsPc i = true) : Executes i s := by
  obtain ⟨t, hnext, htaken, huntaken, hframe⟩ := h
  refine ⟨t, hnext, .done hnone ?_⟩
  rw [hframe]
  refine .jumped hi t.pc ?_
  by_cases hP : P
  · rw [htaken hP, skipPc_toNat]
    omega
  · rw [huntaken hP, nextPc_toNat]
    omega

theorem Executes.of_raise {i : Instr} {s : State} {record : Report} (h : exec i s = raise record s)
    (herror : errorOf i s = some record) : Executes i s := by
  obtain ⟨t, hnext, hraised⟩ := raise_raised record s
  exact ⟨t, h.trans hnext, .error record herror hraised⟩

/-! ### The instructions that can raise (R192) -/

theorem call_executes (nnn : Addr12) (s : State) : Executes (.call nnn) s := by
  by_cases hfull : s.sp.val = 15
  · exact .of_raise (execCall_of_full nnn hfull) (if_pos hfull)
  · obtain ⟨t, hnext, hsp, hnew, hold, hpc, hframe⟩ := execCall_of_not_full nnn hfull
    refine ⟨t, hnext, .done (if_neg hfull) ?_⟩
    rw [hframe, hpc]
    exact .called t.stack t.sp hsp hnew hold

theorem ret_executes (s : State) : Executes .ret s := by
  by_cases hempty : s.sp.val = 0
  · exact .of_raise (execRet_of_empty hempty) (if_pos hempty)
  · obtain ⟨t, hnext, hpc, hsp, hframe⟩ := execRet_of_not_empty hempty
    refine ⟨t, hnext, .done (if_neg hempty) ?_⟩
    rw [hframe, hpc]
    exact .returned t.sp hsp

theorem drw_executes (x y : Reg) (n : Nibble) (s : State) : Executes (.drw x y n) s := by
  by_cases hout : 1 ≤ n.toNat ∧ 4095 < s.i.toNat + n.toNat - 1
  · exact .of_raise (execDrw_of_outside x y (by omega)) (if_pos hout)
  · obtain ⟨t, hnext, -, hflag, hothers, hpc, hframe⟩ := execDrw_of_room (s := s) x y (n := n) (by omega)
    refine ⟨t, hnext, .done (if_neg hout) ?_⟩
    rw [hframe, hpc]
    exact .drawn t.v t.fb hothers ((flagByte_eq _).imp hflag.trans hflag.trans)

theorem loadRegs_executes (x : Reg) (s : State) : Executes (.loadRegs x) s := by
  by_cases hout : 4095 < s.i.toNat + x.val
  · exact .of_raise (execLoadRegs_of_outside x (by omega)) (if_pos hout)
  · obtain ⟨t, hnext, -, habove, hpc, hframe⟩ := execLoadRegs_of_room (x := x) (Nat.le_of_not_lt hout)
    refine ⟨t, hnext, .done (if_neg hout) ?_⟩
    rw [hframe, hpc]
    refine .registers t.v (fun r hr _ => habove r ?_) (fun hflag => Bool.noConfusion hflag)
    exact Nat.lt_of_not_le (of_decide_eq_false hr)

/-- Either store that fits. -/
theorem Executes.of_storesAtI {i : Instr} {s : State} {bytes : List Byte}
    (h : exec i s = complete { s with mem := Memory.writeRange s.mem s.i.toNat bytes }) (hnone : errorOf i s = none)
    (hi : (∃ x, i = .ldBcd x) ∨ ∃ x, i = .storeRegs x) (hin : s.i.toNat + bytes.length ≤ 4096) : Executes i s :=
  ⟨_, h, .done hnone (.stored hi _ fun hwf => writeRange_wf hwf hin)⟩

theorem ldBcd_executes (x : Reg) (s : State) : Executes (.ldBcd x) s := by
  by_cases hout : 4095 < s.i.toNat + 2
  · exact .of_raise (execLdBcd_of_outside x (by omega)) (if_pos hout)
  · have hin : s.i.toNat + 3 ≤ 4096 := by omega
    exact .of_storesAtI (execLdBcd_of_fits x hin) (if_neg hout) (.inl ⟨x, rfl⟩) hin

theorem storeRegs_executes (x : Reg) (s : State) : Executes (.storeRegs x) s := by
  by_cases hout : 4095 < s.i.toNat + x.val
  · exact .of_raise (execStoreRegs_of_outside x (by omega)) (if_pos hout)
  · exact .of_storesAtI (execStoreRegs_of_fits x (by omega)) (if_neg hout) (.inr ⟨x, rfl⟩)
      (by rw [registersUpTo_length]; omega)

theorem ldVxKey_executes (x : Reg) (s : State) : Executes (.ldVxKey x) s := by
  cases hkeys : s.inputs.keysDown with
  | nil => exact ⟨_, execLdVxKey_of_none x hkeys, .done rfl .waits⟩
  | cons k ks =>
    refine .of_writesRegister (x := x) (b := keyByte k) ?_ rfl (decide_eq_true rfl) rfl
    rw [exec_ldVxKey, execLdVxKey_of_event x hkeys]
    exact complete_setV_writesRegister x (keyByte k) s

/-! ### Every instruction -/

/-- Every instruction in every state goes on to a next state, by its error or by its effect. -/
theorem instr_executes (i : Instr) (s : State) : Executes i s := by
  cases i
  case cls => exact ⟨_, rfl, .done rfl (.cleared _)⟩
  case ret => exact ret_executes s
  case call nnn => exact call_executes nnn s
  case drw x y n => exact drw_executes x y n s
  case ldBcd x => exact ldBcd_executes x s
  case storeRegs x => exact storeRegs_executes x s
  case loadRegs x => exact loadRegs_executes x s
  case ldVxKey x => exact ldVxKey_executes x s
  case jp nnn =>
    have := nnn.isLt
    exact ⟨_, rfl, .done rfl (.jumped rfl _ (by rw [addrWord_toNat]; omega))⟩
  case jpV0 nnn =>
    have := nnn.isLt
    have := (getV s V0).isLt
    exact ⟨_, rfl, .done rfl (.jumped rfl _ (by rw [jpV0_target_toNat]; omega))⟩
  case seImm | sneImm | seReg | sneReg | skp | sknp => exact .of_skipsWhen (skipIf_skipsWhen s Iff.rfl) rfl rfl
  case ldImm | addImm | ldReg | orReg | andReg | xorReg | rnd | ldVxDt =>
    exact .of_writesRegister (complete_setV_writesRegister _ _ s) rfl (decide_eq_true rfl) rfl
  case addReg | subReg | shr | subnReg | shl =>
    exact .of_writesResultAndFlag (complete_setResultAndFlag_writes _ s rfl Iff.rfl) rfl (decide_eq_true rfl) rfl
  case ldI nnn => exact ⟨_, rfl, .done rfl (.pointed (.inl ⟨nnn, rfl⟩) _)⟩
  case addI x => exact ⟨_, rfl, .done rfl (.pointed (.inr (.inl ⟨x, rfl⟩)) _)⟩
  case ldFont x => exact ⟨_, rfl, .done rfl (.pointed (.inr (.inr ⟨x, rfl⟩)) _)⟩
  case ldDtVx => exact ⟨_, rfl, .done rfl (.delay _)⟩
  case ldStVx => exact ⟨_, rfl, .done rfl (.sound _)⟩

theorem executed_of_exec {i : Instr} {s t : State} (h : exec i s = .next t) : Executed i s t := by
  obtain ⟨u, hnext, hexecuted⟩ := instr_executes i s
  obtain rfl : u = t := Host.Outcome.next.inj (hnext.symm.trans h)
  exact hexecuted

/-! ### What no effect does -/

theorem Effect.reports_eq {i : Instr} {s t : State} (h : Effect s i t) : t.reports = s.reports := by
  cases h <;> rfl

theorem Effect.pc_eq {i : Instr} {s t : State} (h : Effect s i t) (hi : setsPc i = false) : t.pc = nextPc s.pc := by
  cases h with
  | jumped hset => exact Bool.noConfusion (hset.symm.trans hi)
  | called | returned | waits => exact Bool.noConfusion hi
  | _ => rfl

theorem Effect.getV_eq {i : Instr} {s t : State} (h : Effect s i t) {r : Reg} (hdest : namesDestination i r = false)
    (hvf : r = VF → writesFlag i = false) : getV t r = getV s r := by
  cases h with
  | registers v hnamed => exact hnamed r hdest hvf
  | drawn v fb hothers => exact hothers r fun h => Bool.noConfusion (hvf h)
  | _ => rfl

theorem setsPc_eq_false_of_writesFlag {i : Instr} (h : writesFlag i = true) : setsPc i = false := by
  cases i
  case addReg | subReg | shr | subnReg | shl | drw => rfl
  all_goals exact Bool.noConfusion h

/-- A flag producer that raised nothing leaves a flag in VF (R21). -/
theorem Effect.flag {i : Instr} {s t : State} (h : Effect s i t) (hi : writesFlag i = true) :
    getV t VF = 0 ∨ getV t VF = 1 := by
  cases h with
  | registers v hnamed hflag => exact hflag hi
  | drawn v fb hothers hflag => exact hflag
  | pointed hi' => rcases hi' with ⟨_, rfl⟩ | ⟨_, rfl⟩ | ⟨_, rfl⟩ <;> exact Bool.noConfusion hi
  | stored hi' => rcases hi' with ⟨_, rfl⟩ | ⟨_, rfl⟩ <;> exact Bool.noConfusion hi
  | jumped hset => exact Bool.noConfusion (hset.symm.trans (setsPc_eq_false_of_writesFlag hi))
  | _ => exact Bool.noConfusion hi

/-- The report stream grows by the record of the error, or not at all (R192). -/
theorem Executed.reports_eq {i : Instr} {s t : State} (h : Executed i s t) :
    t.reports = s.reports ++ (errorOf i s).toList := by
  cases h with
  | error record herror hraised =>
    obtain ⟨hreports, -, -⟩ := hraised
    rw [hreports, herror]
    rfl
  | done hnone heffect => rw [heffect.reports_eq, hnone]; exact (List.append_nil _).symm

/-- What raised changed the report stream. -/
theorem reports_ne_of_raised {record : Report} {s t : State} (h : Raised record s t) : t.reports ≠ s.reports := by
  obtain ⟨hreports, -, -⟩ := h
  simp [hreports]

/-- Loading registers does not look at the inputs of the Step. -/
theorem loadFrom_withInputs (s : State) (k : Nat) (bytes : List Byte) (inputs : StepInputs) :
    loadFrom { s with inputs := inputs } k bytes = { loadFrom s k bytes with inputs := inputs } := by
  induction bytes generalizing s k with
  | nil => rfl
  | cons b rest ih =>
    rw [loadFrom, loadFrom]
    split
    · exact ih (setV s _ b) (k + 1)
    · exact ih s (k + 1)

/-! ### The statements -/

/-- Settles O50: by the error, or by an effect, which raises nothing. -/
theorem instructionsRaiseExactlyTheirError : Obligations.InstructionsRaiseExactlyTheirError := by
  intro i s
  obtain ⟨t, hnext, hexecuted⟩ := instr_executes i s
  exact ⟨t, hnext, hexecuted.reports_eq⟩

/-- Settles O51: an effect leaves the report stream, so the instruction raised. -/
theorem errorsArePrecise : Obligations.ErrorsArePrecise := by
  intro i s t hnext hne
  cases executed_of_exec hnext with
  | error record _ hraised => exact ⟨record, hraised⟩
  | done _ heffect => exact absurd heffect.reports_eq hne

/-- Settles O53: an error advances PC by default, and so does every effect of an instruction with no PC effect. -/
theorem pcAdvancesByDefault : Obligations.PcAdvancesByDefault := by
  intro i s t hnext h
  cases executed_of_exec hnext with
  | error record _ hraised =>
    obtain ⟨-, hpc, -⟩ := hraised
    exact hpc
  | done _ heffect => exact heffect.pc_eq (h.resolve_right (not_not_intro heffect.reports_eq))

/-- Settles O25: an error writes no register, and every effect writes those that the instruction names or its flag. -/
theorem registersChangeOnlyAsNamed : Obligations.RegistersChangeOnlyAsNamed := by
  intro i s t r hnext hdest hvf
  cases executed_of_exec hnext with
  | error record _ hraised =>
    obtain ⟨-, -, hframe⟩ := hraised
    rw [hframe]
    rfl
  | done _ heffect => exact heffect.getV_eq hdest hvf

/-- Settles O24: what raised nothing had its effect, and the two effects that a flag producer has end in a flag. -/
theorem flagIsZeroOrOne : Obligations.FlagIsZeroOrOne := by
  intro i s t hflag hnext hreports
  cases executed_of_exec hnext with
  | error record _ hraised => exact absurd hreports (reports_ne_of_raised hraised)
  | done _ heffect => exact heffect.flag hflag

/-- Settles O52: an error writes the reports and PC, which the matrix leaves out; an effect names its instructions. -/
theorem writeMatrix : Obligations.WriteMatrix := by
  intro i s t hnext
  cases executed_of_exec hnext with
  | error record _ hraised =>
    obtain ⟨-, -, hframe⟩ := hraised
    rw [hframe]
    simp
  | done _ heffect =>
    cases heffect with
    | pointed hi => simp [hi]
    | stored hi => simp [hi]
    | _ => simp

/-- Settles O54: apart from the readers every meaning commutes with a change of the latch: whether a stack operation or
an access at I succeeds, and what it answers, hangs on SP, the stack, I and memory alone. -/
theorem inputsReachOnlyTheirReaders : Obligations.InputsReachOnlyTheirReaders := by
  intro i s t inputs hreads h
  cases i
  case skp | sknp | ldVxKey | rnd => cases hreads
  case call nnn =>
    simp only [exec_call, execCall, pushReturn] at h ⊢
    split_ifs at h ⊢ <;> cases h <;> rfl
  case ret =>
    simp only [exec_ret, execRet, popReturn] at h ⊢
    split_ifs at h ⊢ <;> cases h <;> rfl
  case drw x y n =>
    simp only [exec_drw, execDrw, readAtI] at h ⊢
    generalize Memory.read? s.mem s.i.toNat n.toNat = read at h ⊢
    cases read <;> cases h <;> rfl
  case loadRegs x =>
    simp only [exec_loadRegs, execLoadRegs, readAtI] at h ⊢
    generalize Memory.read? s.mem s.i.toNat (x.val + 1) = read at h ⊢
    cases read <;> cases h
    · rfl
    · exact congrArg complete (loadFrom_withInputs s 0 _ inputs)
  case ldBcd x =>
    simp only [exec_ldBcd, execLdBcd, storeAtI, getV] at h ⊢
    generalize Memory.write? s.mem s.i.toNat _ = written at h ⊢
    cases written <;> cases h <;> rfl
  case storeRegs x =>
    simp only [exec_storeRegs, execStoreRegs, storeAtI, registersUpTo] at h ⊢
    generalize Memory.write? s.mem s.i.toNat _ = written at h ⊢
    cases written <;> cases h <;> rfl
  all_goals cases h; rfl

end Sys2Proof.Proofs
end

section
/-! SUPPORT. The two transitions (40_step_and_dispatch.md R95 to R107): what a step can be, said once for every state,
what a fetched word says of memory, and the statements about one transition. -/

namespace Sys2Proof.Proofs

open Sys2Proof.Machine Sys2Proof.Laws

/-! ### What is fetched -/

theorem wordOfBytes_toNat (hi lo : Byte) : (wordOfBytes hi lo).toNat = hi.toNat * 256 + lo.toNat := by
  rw [wordOfBytes, BitVec.toNat_append, ← Nat.shiftLeft_add_eq_or_of_lt lo.isLt, Nat.shiftLeft_eq]

theorem fetch_eq_some {s : State} {op : Word} (h : fetch s = some op) : s.pc.toNat ≤ 4094 ∧
    op = wordOfBytes (Memory.readByte s.mem s.pc.toNat) (Memory.readByte s.mem (s.pc.toNat + 1)) := by
  rcases Nat.lt_or_ge 4094 s.pc.toNat with hgt | hle
  · rw [fetch_of_gt hgt] at h
    cases h
  · rw [fetch_of_le hle] at h
    exact ⟨hle, (Option.some.inj h).symm⟩

/-! ### What a step can be -/

/-- A Step in RUNNING raises an error of its own or executes the instruction that it fetched (R97, R98, R101). -/
theorem runInstruction_cases (s : State) : (∃ record, runInstruction s = raise record s) ∨
    ∃ op i, fetch s = some op ∧ decodeWord op = .ok i ∧ runInstruction s = exec i s := by
  cases hfetch : fetch s with
  | none => exact .inl ⟨_, runInstruction_of_no_fetch hfetch⟩
  | some op =>
    rcases decodeWord_total op with ⟨i, hi⟩ | hunknown
    · exact .inr ⟨op, i, rfl, hi, runInstruction_of_decoded hfetch hi⟩
    · exact .inl ⟨_, runInstruction_of_unknown hfetch hunknown⟩

/-- `u` is `s` but for the environment's side of the interface: the latch, the list and the counter. -/
def SameCore (s u : State) : Prop := u = { s with inputs := u.inputs, pending := u.pending, draws := u.draws }

/-- What a step can answer: a Tick, a poll of the keys in WAITING or one instruction in RUNNING, of the same CORE. -/
inductive Stepped (s : State) (answer : Result) : Prop
  | ticks (u : State) (hcore : SameCore s u) (h : answer = .next (tickTimers u))
  | polls (u : State) (hcore : SameCore s u) (hmode : s.mode = .waiting) (h : answer = .next (pollKey u))
  | runs (u : State) (hcore : SameCore s u) (hmode : s.mode = .running) (h : answer = runInstruction u)

theorem stepped_of_scheduled {s r : State} {event : Transition} {rest : List Transition} (hcore : SameCore s r)
    (hpending : r.pending = event :: rest) : Stepped s (step r) := by
  have hmode : r.mode = s.mode := by rw [hcore]
  cases event with
  | tick =>
    refine .ticks { r with pending := rest } ?_ (step_tick hpending)
    rw [hcore]; rfl
  | step inputs =>
    have hbegin : SameCore s (beginStep r inputs rest) := by rw [hcore]; rfl
    cases hm : r.mode with
    | waiting => exact .polls _ hbegin (hmode ▸ hm) (step_waiting hpending hm)
    | running => exact .runs _ hbegin (hmode ▸ hm) (step_running hpending hm)

theorem step_stepped (s : State) : Stepped s (step s) := by
  cases hpending : s.pending with
  | nil =>
    rw [step_unscheduled hpending]
    exact stepped_of_scheduled (r := { s with pending := _, draws := s.draws + 1 }) rfl rfl
  | cons event rest => exact stepped_of_scheduled rfl hpending

/-- A Step in RUNNING on bytes that decode (R97, R98). -/
theorem step_of_decoded {s : State} {i : Instr} {inputs : StepInputs} {rest : List Transition}
    (hpending : s.pending = .step inputs :: rest) (hmode : s.mode = .running) (hpc : s.pc.toNat ≤ 4094)
    (hdecode : decode [Memory.readByte s.mem s.pc.toNat, Memory.readByte s.mem (s.pc.toNat + 1)] = .ok i) :
    step s = exec i { s with inputs := inputs, pending := rest } := by
  rw [step_running hpending hmode]
  exact runInstruction_of_decoded (fetch_of_le hpc) hdecode

theorem pollKey_reports (s : State) : (pollKey s).reports = s.reports := by
  unfold pollKey
  split <;> rfl

/-- An instruction or an error in its place appends one record or none (R199). -/
theorem runInstruction_reports {s t : State} (h : runInstruction s = .next t) :
    t.reports = s.reports ∨ ∃ record, t.reports = s.reports ++ [record] := by
  rcases runInstruction_cases s with ⟨record, hraise⟩ | ⟨op, i, -, -, hexec⟩
  · rw [hraise] at h
    cases h
    exact .inr ⟨record, rfl⟩
  · rw [(executed_of_exec (hexec.symm.trans h)).reports_eq]
    cases errorOf i s with
    | none => exact .inl (List.append_nil _)
    | some record => exact .inr ⟨record, rfl⟩

/-! ### The statements -/

/-- Settles O6: the two moduli are one, so two advances are one skip. -/
theorem nextAndSkipWrapModulo4095 : Obligations.NextAndSkipWrapModulo4095 := by
  intro p
  refine ⟨nextPc_toNat p, skipPc_toNat p, BitVec.eq_of_toNat_eq ?twice, ?bound⟩
  case twice =>
    rw [skipPc_toNat, nextPc_toNat, nextPc_toNat]
    omega
  case bound =>
    rw [nextPc_toNat]
    omega

/-- Settles O7: a scheduled Step executes what it fetched; the free transition is a Step of its own inputs or a Tick. -/
theorem stepRunsDecodedInstruction : Obligations.StepRunsDecodedInstruction := by
  intro s i hmode hpc hdecode
  refine ⟨fun inputs rest hpending => step_of_decoded hpending hmode hpc hdecode, fun hnone => ?free⟩
  case free =>
    rw [step_unscheduled hnone]
    cases unscheduledTransition s.draws with
    | tick => exact .inr rfl
    | step inputs =>
      refine .inl ⟨inputs, ?_⟩
      rw [step_of_decoded (s := { s with pending := [.step inputs], draws := s.draws + 1 }) rfl hmode hpc hdecode]
      simp only [hnone]

/-- Settles O8: the fetch succeeds, the decoder rejects the word, and the Step raises with it. -/
theorem unknownOpcodeIsReported : Obligations.UnknownOpcodeIsReported := by
  intro s inputs rest hpending hmode hpc hno
  have hfetch := fetch_of_le (s := beginStep s inputs rest) hpc
  obtain ⟨i, hi⟩ | hunknown := decodeWord_total
    (wordOfBytes (Memory.readByte s.mem s.pc.toNat) (Memory.readByte s.mem (s.pc.toNat + 1)))
  · exact absurd hi (hno i)
  · rw [step_running hpending hmode, runInstruction_of_unknown hfetch hunknown]
    obtain ⟨t, hnext, hraised⟩ := raise_raised (.unknownOpcode s.pc _) (beginStep s inputs rest)
    exact ⟨t, _, hnext, wordOfBytes_toNat _ _, hraised⟩

/-- Settles O9: the fetch is refused, and the Step raises. -/
theorem fetchBeyondMemoryIsReported : Obligations.FetchBeyondMemoryIsReported := by
  intro s inputs rest hpending hmode hpc
  rw [step_running hpending hmode, runInstruction_of_no_fetch (s := beginStep s inputs rest) (fetch_of_gt hpc)]
  exact raise_raised _ (beginStep s inputs rest)

/-- Settles O10: a Tick and a poll answer a next state at once, an error and an instruction always do. -/
theorem everyStateSteps : Obligations.EveryStateSteps := by
  intro s
  rcases step_stepped s with ⟨u, -, htick⟩ | ⟨u, -, -, hpoll⟩ | ⟨u, -, -, hrun⟩
  · exact ⟨_, htick⟩
  · exact ⟨_, hpoll⟩
  · rw [hrun]
    rcases runInstruction_cases u with ⟨record, hraise⟩ | ⟨op, i, -, -, hexec⟩
    · exact ⟨_, hraise⟩
    · obtain ⟨t, hnext, -⟩ := instr_executes i u
      exact ⟨t, hexec.trans hnext⟩

/-- Settles O11: an error of the Step appends one record, an instruction the record of its one error or none, a Tick and
a poll none. -/
theorem stepReportsAtMostOneError : Obligations.StepReportsAtMostOneError := by
  intro s t hstep
  have hsame (h : t.reports = s.reports) : (t.reports = s.reports ∨ ∃ r, t.reports = s.reports ++ [r]) ∧
      (s.mode = .waiting → t.reports = s.reports) ∧ (∀ rest, s.pending = .tick :: rest → t.reports = s.reports) :=
    ⟨.inl h, fun _ => h, fun _ _ => h⟩
  rcases step_stepped s with ⟨u, hcore, htick⟩ | ⟨u, hcore, -, hpoll⟩ | ⟨u, hcore, hmode, hrun⟩
  · obtain rfl := Host.Outcome.next.inj (htick.symm.trans hstep)
    exact hsame (by rw [tickTimers_reports, hcore])
  · obtain rfl := Host.Outcome.next.inj (hpoll.symm.trans hstep)
    exact hsame (by rw [pollKey_reports, hcore])
  · refine ⟨?atMostOne, fun hwaiting => ?waiting, fun rest hpending => ?tick⟩
    case atMostOne =>
      have hu : u.reports = s.reports := by rw [hcore]
      rw [← hu]
      exact runInstruction_reports (hrun.symm.trans hstep)
    case waiting => exact Mode.noConfusion (hmode.symm.trans hwaiting)
    case tick =>
      obtain rfl := Host.Outcome.next.inj ((step_tick hpending).symm.trans hstep)
      exact tickTimers_reports _

/-- Settles O44: a Tick counts both timers down, each by one or to 0. -/
theorem tickDecrementsTimers : Obligations.TickDecrementsTimers := by
  intro s rest hpending
  exact ⟨_, step_tick hpending, countDown_toNat _, countDown_toNat _, rfl⟩

/-- Settles O41: a poll without an event is nothing, one with an event is a register write, an advance and the mode. -/
theorem waitingStepPollsTheKeys : Obligations.WaitingStepPollsTheKeys := by
  intro s inputs rest hmode hpending
  rw [step_waiting hpending hmode]
  refine ⟨fun hnone => ?nothing, fun k ks hevent => ?completes⟩
  case nothing => rw [pollKey_of_none (s := beginStep s inputs rest) hnone]; rfl
  case completes =>
    rw [pollKey_of_event (s := beginStep s inputs rest) hevent]
    refine ⟨_, rfl, ?_, fun r hr => ?_, rfl, rfl, rfl⟩
    · exact (congrArg BitVec.toNat (getV_setV_self _ _ _)).trans (keyByte_toNat k)
    · exact getV_setV_of_ne _ _ hr

/-- Settles O57: the free transition is, by its definition, the one written out. -/
theorem emptyListLeavesTheTransitionOpen : Obligations.EmptyListLeavesTheTransitionOpen := fun _ h => step_unscheduled h

/-- Settles O55: the jump sets PC to what it is. -/
theorem jumpToSelfIsAFixedPoint : Obligations.JumpToSelfIsAFixedPoint := by
  intro nnn s inputs rest hpending hmode hself hpc hdecode
  have htarget : addrWord nnn = s.pc := BitVec.eq_of_toNat_eq (by rw [addrWord_toNat, hself])
  rw [step_of_decoded hpending hmode hpc hdecode, exec_jp, jumpTo, htarget]

/-- Settles O34: the store put the two registers where PC now is, so the next Step fetches and decodes them. -/
theorem storedInstructionIsFetchedNext : Obligations.StoredInstructionIsFetchedNext := by
  intro x s t i inputs rest hwf hx hin hstore hi hmode hpending hdecode
  obtain ⟨u, hnext, hstored, -, hpc, hframe⟩ := execStoreRegs_of_room hwf hin
  obtain rfl : u = t := Host.Outcome.next.inj (hnext.symm.trans hstore)
  have hupc : u.pc = s.i := hpc.trans hi.symm
  refine step_of_decoded ?pending ?mode ?fetchable ?decoded
  case pending => rw [hframe, hpending]
  case mode => rw [hframe, hmode]
  case fetchable => rw [hupc]; omega
  case decoded =>
    have hfirst : Memory.readByte u.mem s.i.toNat = getV s 0 := hstored 0 (Nat.zero_le _)
    have hsecond : Memory.readByte u.mem (s.i.toNat + 1) = getV s 1 := hstored 1 hx
    rw [hupc, hfirst, hsecond, hdecode]

end Sys2Proof.Proofs
end

section
/-! SUPPORT. The invariants (10_state.md R34, R36): they hold after power-on, and each thing a step can be keeps them;
and the statements about them. -/

namespace Sys2Proof.Proofs

open Sys2Proof.Machine Sys2Proof.Laws

/-! ### What keeps the invariants -/

theorem nextPc_le (p : Word) : (nextPc p).toNat ≤ 4094 := by
  rw [nextPc_toNat]
  omega

/-- The invariants do not look at the environment's side of the interface. -/
theorem SameCore.inv {s u : State} (h : SameCore s u) (hinv : Inv s) : Inv u := by
  rw [h]
  exact ⟨hinv.memory, hinv.pcRange, hinv.returns, hinv.waiting⟩

theorem inv_tickTimers {s : State} (hinv : Inv s) : Inv (tickTimers s) :=
  ⟨hinv.memory, hinv.pcRange, hinv.returns, hinv.waiting⟩

/-- In RUNNING a change of PC within its range keeps the invariants, whatever else but memory and stack changes. -/
theorem inv_of_running {s t : State} (hinv : Inv s) (hmode : t.mode = .running) (hpc : t.pc.toNat ≤ 4350)
    (hmem : t.mem = s.mem) (hstack : t.stack = s.stack) (hsp : t.sp = s.sp) : Inv t := by
  refine ⟨hmem ▸ hinv.memory, hpc, fun k hlow hhigh => ?returns, fun hwaiting => ?waiting⟩
  case returns =>
    rw [getStack, hstack]
    exact hinv.returns k hlow (hsp ▸ hhigh)
  case waiting => exact Mode.noConfusion (hmode.symm.trans hwaiting)

theorem inv_pollKey {s : State} (hinv : Inv s) : Inv (pollKey s) := by
  cases hkeys : s.inputs.keysDown with
  | nil => rwa [pollKey_of_none hkeys]
  | cons k ks =>
    rw [pollKey_of_event hkeys]
    exact inv_of_running hinv rfl ((nextPc_le s.pc).trans (by decide)) rfl rfl rfl

/-- An error in RUNNING changes the reports and PC alone. -/
theorem inv_of_raised {record : Report} {s t : State} (h : Raised record s t) (hinv : Inv s)
    (hmode : s.mode = .running) : Inv t := by
  obtain ⟨-, hpc, hframe⟩ := h
  rw [hframe, hpc]
  exact inv_of_running hinv hmode ((nextPc_le s.pc).trans (by decide)) rfl rfl rfl

/-- R36 (e) at the moment an FX0A starts to wait: the word that was fetched is the one of the instruction. -/
theorem waiting_of_fetch {s : State} {op : Word} {x : Reg} (hfetch : fetch s = some op)
    (hdecode : decodeWord op = .ok (.ldVxKey x)) : s.pc.toNat ≤ 4094 ∧
      (Memory.readByte s.mem s.pc.toNat).toNat = 0xF0 + x.val ∧ Memory.readByte s.mem (s.pc.toNat + 1) = 0x0A := by
  obtain ⟨hpc, rfl⟩ := fetch_eq_some hfetch
  have hword : (Memory.readByte s.mem s.pc.toNat).toNat * 256 + (Memory.readByte s.mem (s.pc.toNat + 1)).toNat =
      0xF * 4096 + x.val * 256 + 0x0A := by
    rw [← wordOfBytes_toNat, ← encode_of_decodeWord hdecode]
    exact formXNN_toNat 0xF x 0x0A
  have hx := x.isLt
  have hhi := (Memory.readByte s.mem s.pc.toNat).isLt
  have hlo := (Memory.readByte s.mem (s.pc.toNat + 1)).isLt
  have hsecond : (Memory.readByte s.mem (s.pc.toNat + 1)).toNat = 0x0A := by omega
  exact ⟨hpc, by omega, BitVec.eq_of_toNat_eq hsecond⟩

/-- Every effect of an instruction in RUNNING keeps the invariants; for the wait it must be the instruction that was
fetched. -/
theorem Effect.inv {i : Instr} {s t : State} (h : Effect s i t) (hinv : Inv s) (hmode : s.mode = .running) {op : Word}
    (hfetch : fetch s = some op) (hdecode : decodeWord op = .ok i) : Inv t := by
  have hnext : (nextPc s.pc).toNat ≤ 4350 := (nextPc_le s.pc).trans (by decide)
  cases h with
  | stored hi m hwf =>
    exact ⟨hwf hinv.memory, hnext, hinv.returns, fun hwaiting => Mode.noConfusion (hmode.symm.trans hwaiting)⟩
  | jumped hi target hrange => exact inv_of_running hinv hmode hrange rfl rfl rfl
  | @called nnn stack sp hsp hnew hold =>
    have htarget : (addrWord nnn).toNat ≤ 4350 := by
      have := nnn.isLt
      rw [addrWord_toNat]
      omega
    refine ⟨hinv.memory, htarget, fun k hlow hhigh => ?returns, fun hwaiting => ?waiting⟩
    case waiting => exact Mode.noConfusion (hmode.symm.trans hwaiting)
    case returns =>
      by_cases hk : k = sp
      · subst hk
        exact (congrArg BitVec.toNat hnew).trans_le (nextPc_le s.pc)
      · have hne : k.val ≠ sp.val := fun e => hk (Fin.ext e)
        simp only at hhigh
        exact (congrArg BitVec.toNat (hold k hk)).trans_le (hinv.returns k hlow (by omega))
  | returned sp hsp =>
    refine ⟨hinv.memory, ?range, fun k hlow hhigh => ?returns, fun hwaiting => ?waiting⟩
    case range => exact (hinv.returns s.sp (by omega) le_rfl).trans (by decide)
    case returns =>
      simp only at hhigh
      exact hinv.returns k hlow (by omega)
    case waiting => exact Mode.noConfusion (hmode.symm.trans hwaiting)
  | waits => exact ⟨hinv.memory, hinv.pcRange, hinv.returns, fun _ => waiting_of_fetch hfetch hdecode⟩
  | _ => exact inv_of_running hinv hmode hnext rfl rfl rfl

theorem inv_runInstruction {s t : State} (hinv : Inv s) (hmode : s.mode = .running) (h : runInstruction s = .next t) :
    Inv t := by
  rcases runInstruction_cases s with ⟨record, hraise⟩ | ⟨op, i, hfetch, hdecode, hexec⟩
  · obtain ⟨u, hnext, hraised⟩ := raise_raised record s
    obtain rfl := Host.Outcome.next.inj ((hraise.trans hnext).symm.trans h)
    exact inv_of_raised hraised hinv hmode
  · cases executed_of_exec (hexec.symm.trans h) with
    | error record _ hraised => exact inv_of_raised hraised hinv hmode
    | done _ heffect => exact heffect.inv hinv hmode hfetch hdecode

/-- A machine with an empty stack that runs at 0x200 meets the invariants when its memory is canonical. -/
theorem inv_reset_with {m : Memory} (hm : Memory.wf m = true) : Inv { State.reset with mem := m } := by
  have hpc : State.reset.pc.toNat ≤ 4350 := by decide
  refine ⟨hm, hpc, fun k hlow hhigh => ?returns, fun hwaiting => Mode.noConfusion hwaiting⟩
  case returns =>
    have hempty : k.val ≤ 0 := hhigh
    omega

/-! ### The statements -/

/-- Settles O49: a Tick, a poll of the keys, an error and an effect each keep the invariants. -/
theorem stepKeepsInvariants : Obligations.StepKeepsInvariants := by
  intro s t hinv hstep
  rcases step_stepped s with ⟨u, hcore, htick⟩ | ⟨u, hcore, -, hpoll⟩ | ⟨u, hcore, hmode, hrun⟩
  · obtain rfl := Host.Outcome.next.inj (htick.symm.trans hstep)
    exact inv_tickTimers (hcore.inv hinv)
  · obtain rfl := Host.Outcome.next.inj (hpoll.symm.trans hstep)
    exact inv_pollKey (hcore.inv hinv)
  · have humode : u.mode = .running := by rw [hcore]; exact hmode
    exact inv_runInstruction (hcore.inv hinv) humode (hrun.symm.trans hstep)

/-- Settles O48: reset and power-on differ in memory alone, and both memories are canonical. -/
theorem powerOnMeetsInvariants : Obligations.PowerOnMeetsInvariants :=
  ⟨inv_reset_with reset_mem_wf, fun _ h => inv_reset_with (powerOnMemory_wf h)⟩

/-- Settles O46: the fields of the reset state as they are written, registers, stack and pixels one by one. -/
theorem resetState : Obligations.ResetState := by
  refine ⟨fun r => ?registers, rfl, rfl, rfl, rfl, rfl, rfl, rfl, fun k => ?stack, rfl, pixel_clearSurface⟩
  case registers => exact Vector.getElem_replicate _
  case stack => exact Vector.getElem_replicate _

end Sys2Proof.Proofs
end

section
/-! SUPPORT. Runs of several transitions (40_step_and_dispatch.md R102, R103; 45_keys_timers.md R182): a run of one more
transition, and the statements about waits and timers. -/

namespace Sys2Proof.Proofs

open Sys2Proof.Machine Sys2Proof.Laws

/-- A run of one more transition is that transition and then the run. -/
theorem runFor_succ_of_step {s t : State} (h : step s = .next t) (n : Nat) : runFor (n + 1) s = runFor n t := by
  simp only [runFor, h]

/-- One transition that brings no key leaves a waiting machine but for the timers and the latch (R102, R103). -/
theorem step_of_waiting_quiet {s : State} {event : Transition} {rest : List Transition} (hmode : s.mode = .waiting)
    (hquiet : bringsNoKey event = true) (hpending : s.pending = event :: rest) :
    ∃ t, step s = .next t ∧ t = { s with dt := t.dt, st := t.st, inputs := t.inputs, pending := rest } ∧
      t.dt.toNat ≤ s.dt.toNat ∧ t.st.toNat ≤ s.st.toNat := by
  cases event with
  | tick =>
    refine ⟨_, step_tick hpending, rfl, ?_, ?_⟩
    · exact (countDown_toNat s.dt).trans_le (Nat.sub_le _ _)
    · exact (countDown_toNat s.st).trans_le (Nat.sub_le _ _)
  | step inputs =>
    have hnone : (beginStep s inputs rest).inputs.keysDown = [] := List.isEmpty_iff.mp hquiet
    rw [step_waiting hpending hmode, pollKey_of_none hnone]
    exact ⟨_, rfl, rfl, le_rfl, le_rfl⟩

/-! ### The statements -/

/-- Settles O42, by induction on the transitions that bring no key: each leaves the machine waiting. -/
theorem waitLastsUntilAKeyComes : Obligations.WaitLastsUntilAKeyComes := by
  intro s quiet rest hmode hquiet hpending
  induction quiet generalizing s with
  | nil => exact ⟨s, rfl, by rw [← List.nil_append rest, ← hpending], le_rfl, le_rfl⟩
  | cons event quiet ih =>
    rw [List.all_cons, Bool.and_eq_true] at hquiet
    obtain ⟨hevent, hquiet⟩ := hquiet
    obtain ⟨t, hstep, hframe, hdt, hst⟩ := step_of_waiting_quiet hmode hevent hpending
    obtain ⟨u, hrun, huframe, hudt, hust⟩ := ih t (by rw [hframe, hmode]) hquiet (by rw [hframe]; rfl)
    refine ⟨u, (runFor_succ_of_step hstep _).trans hrun, ?frame, hudt.trans hdt, hust.trans hst⟩
    case frame => rw [huframe, hframe]

/-- Settles O45, by induction on the number of Ticks. -/
theorem ticksCountDownToZero : Obligations.TicksCountDownToZero := by
  intro n s rest hpending
  induction n generalizing s with
  | zero => exact ⟨s, rfl, rfl, rfl, by rw [← List.nil_append rest, ← List.replicate_zero, ← hpending]⟩
  | succ n ih =>
    rw [List.replicate_succ, List.cons_append] at hpending
    obtain ⟨t, hstep, hdt, hst, hframe⟩ := tickDecrementsTimers s (List.replicate n .tick ++ rest) hpending
    obtain ⟨u, hrun, hudt, hust, huframe⟩ := ih t (by rw [hframe])
    refine ⟨u, (runFor_succ_of_step hstep n).trans hrun, by omega, by omega, ?frame⟩
    case frame => rw [huframe, hframe]

end Sys2Proof.Proofs
end
